-- ==== Sys2Proof/Word.lean ====
section
/-! DEFINITION. The word types of the block: the byte of the three address spaces, the level of a pin
and the row index (spec/00_scope.md R8, spec/10_state.md R11). -/

namespace Sys2Proof

/-- One byte of FB, ACC or an operand buffer: an unsigned intensity, residual or seed (R20, R21, R73). -/
abbrev Byte := BitVec 8

/-- The level of a 1-bit pin, port or flag: `true` is 1 (high), `false` is 0 (low) (R8). -/
abbrev Level := Bool

/-- A row index, 0 to 7, whose increment drops the carry (R11, R81). -/
abbrev Row := BitVec 3

end Sys2Proof
end

