-- ==== Sys2Proof/Config.lean ====
section
/-! DEFINITION. The open parameters of the block (spec/00_scope.md R4). ROWS = 8, NCH = 2, IW = 8 and
SYNC_ROW = 7 are fixed and appear as numbers in the rules; the four open ones are data that State carries,
so that every statement about a state is a statement for every value of them (log 2). -/

namespace Sys2Proof

/-- The open parameters of one instance; no rule changes one (R4, R29). -/
structure Params where
  /-- COLS, columns of both grids. -/
  cols : Nat
  /-- FCW, width of the frame counter in bits. -/
  fcw : Nat
  /-- PANEL_EN_ACTIVE, the electrical level of an asserted PANEL_EN (R19). -/
  panelEnActive : Level
  /-- TICK_PERIOD in clock periods; no rule of the machine uses it (U15), only the deadline of R194 does. -/
  tickPeriod : Nat
deriving DecidableEq, Repr

/-- The instance that the reset state is given: COLS = 8 (R4 quotes "e.g. 8 or more"), FCW = 32 and
PANEL_EN_ACTIVE = 1 (the values R4 suggests), TICK_PERIOD = 39 (the least that meets R194 at COLS = 8).
DESIGN CHOICE, unsafe for a claim about this one instance only: see log 2. -/
def Params.chosen : Params := { cols := 8, fcw := 32, panelEnActive := true, tickPeriod := 39 }

end Sys2Proof
end

