-- ==== Sys2Proof/Syntax.lean ====
section
/-! DEFINITION. The syntax of the block: its operations and micro-operations (one constructor of `Instr`
per row of spec/opcode_table.json), the codes that stand for them on the three ports that carry codes
(spec/30_encoding.md R60), the input ports (spec/10_state.md R26) and the stimuli of the environment
(spec/30_encoding.md R74). -/

namespace Sys2Proof

/-- The operations, commands and sequencer phases of the opcode table, in the table's order. The bulk
operands of INIT and SETFRAME travel beside the code (R64) and stand in `Inputs`. -/
inductive Instr where
  | tick
  | nop
  | init
  | enable
  | disable
  | setframe
  | reservedCmd5
  | reservedCmd6
  | reservedCmd7
  | phIdle
  | phLatHi
  | phAddr0
  | phAddr1
  | phAddr2
  | phLatLo
  | phSyncReq
  | phSyncWait
  | phClkLo
  | phRed
  | phGrn
  | phClkHi
  /-- The reserved phase codes 0b11xx; `x` is the code's low two bits (R72). -/
  | phReserved (x : BitVec 2)
deriving DecidableEq, Repr

/-- The three formats that carry a code (R60): STROBE 1 bit, CMD 3 bits, PHASE 4 bits. -/
inductive Format where
  | strobe
  | cmd
  | phase
deriving DecidableEq, Repr

/-- A code as it stands on its port or register, in the low bits of `bits`. -/
structure Code where
  format : Format
  bits : BitVec 4
deriving DecidableEq, Repr

/-- What the Hook does while one operation-level sync tick is suspended (R92): the operands of the
SETFRAMEs it issues, in order, and whether it returns. It can issue nothing else (U4). -/
structure HookRun where
  frames : List (List Byte)
  returns : Bool
deriving DecidableEq, Repr

/-- The input ports (R26), with the Hook's behaviour for an operation-level TICK beside them. `clk` is
the step itself. -/
structure Inputs where
  rst : Level
  tick : Level
  cmdValid : Level
  cmd : BitVec 3
  /-- The operand of SETFRAME, address space SRC: byte `i` stands at address `i` (R40, R66). -/
  srcBuf : List Byte
  /-- The operand of INIT, laid out like SRC (R67). -/
  seedBuf : List Byte
  syncAck : Level
  /-- Read by an operation-level sync tick only. -/
  hook : HookRun
deriving DecidableEq, Repr

/-- A Hook that issues nothing and returns. -/
def HookRun.idle : HookRun := { frames := [], returns := true }

/-- Every input port at level 0 and no operand presented. -/
def Inputs.quiet : Inputs :=
  { rst := false, tick := false, cmdValid := false, cmd := 0, srcBuf := [], seedBuf := [],
    syncAck := false, hook := HookRun.idle }

/-- One stimulus of the environment: at the operation level one line of R74's notation, at the cycle level
the input ports of one clock cycle. -/
inductive Stimulus where
  /-- `TICK hook=...`: one tick strobe, taken as one operation. -/
  | tick (hook : HookRun)
  /-- A command with the two operand buffers beside it, taken as one operation. -/
  | command (cmd : BitVec 3) (src seed : List Byte)
  /-- One rising edge of `clk` with these levels sampled. -/
  | cycle (inp : Inputs)
deriving DecidableEq, Repr

/-- A tick or a command of the operation level, not a clock cycle. -/
def Stimulus.isOperation : Stimulus → Bool
  | .tick _ => true
  | .command _ _ _ => true
  | .cycle _ => false

/-- `RESET`: `rst` at level 1 for one cycle (R75). -/
def Stimulus.rstCycle : Stimulus := .cycle { Inputs.quiet with rst := true }

/-- `TICKS n` with one Hook behaviour for all of them (R75). -/
def ticks (n : Nat) (h : HookRun) : List Stimulus := List.replicate n (.tick h)

/-- `SWEEP`: 8 ticks (R75). -/
def sweep (h : HookRun) : List Stimulus := ticks 8 h

end Sys2Proof
end

