-- ==== Sys2Proof/Decode.lean ====
section
/-! DEFINITION. Decoding and encoding of the codes (spec/30_encoding.md R65, R68, R70, R71, R72;
spec/opcode_table.json). Decoding is total; what stands for no instruction is rejected by name. -/

namespace Sys2Proof

/-- Why a code stands for no instruction. -/
inductive DecodeError where
  /-- The strobe is at level 0: no tick (R68). -/
  | noStrobe
  /-- A bit is set that the port does not have (R60). -/
  | strayBits
deriving DecidableEq, Repr

/-! ## The command codes (R65) -/

def cmdNop : BitVec 3 := 0b000#3
def cmdInit : BitVec 3 := 0b001#3
def cmdEnable : BitVec 3 := 0b010#3
def cmdDisable : BitVec 3 := 0b011#3
def cmdSetframe : BitVec 3 := 0b100#3

/-! ## The phase codes (R70) -/

def codeIdle : BitVec 4 := 0b0000#4
def codeLatHi : BitVec 4 := 0b0001#4
def codeAddr0 : BitVec 4 := 0b0010#4
def codeAddr1 : BitVec 4 := 0b0011#4
def codeAddr2 : BitVec 4 := 0b0100#4
def codeLatLo : BitVec 4 := 0b0101#4
def codeSyncReq : BitVec 4 := 0b0110#4
def codeSyncWait : BitVec 4 := 0b0111#4
def codeClkLo : BitVec 4 := 0b1000#4
def codeRed : BitVec 4 := 0b1001#4
def codeGrn : BitVec 4 := 0b1010#4
def codeClkHi : BitVec 4 := 0b1011#4

/-- The command opcode map: every 3-bit word is a command or a reserved code (R65, R71). -/
def decodeCmd (c : BitVec 3) : Instr :=
  if c = cmdNop then .nop
  else if c = cmdInit then .init
  else if c = cmdEnable then .enable
  else if c = cmdDisable then .disable
  else if c = cmdSetframe then .setframe
  else if c = 0b101#3 then .reservedCmd5
  else if c = 0b110#3 then .reservedCmd6
  else .reservedCmd7

/-- The phase codes: every 4-bit word is one of the twelve phases or reserved (R70, R72). -/
def decodePhase (p : BitVec 4) : Instr :=
  if p = codeIdle then .phIdle
  else if p = codeLatHi then .phLatHi
  else if p = codeAddr0 then .phAddr0
  else if p = codeAddr1 then .phAddr1
  else if p = codeAddr2 then .phAddr2
  else if p = codeLatLo then .phLatLo
  else if p = codeSyncReq then .phSyncReq
  else if p = codeSyncWait then .phSyncWait
  else if p = codeClkLo then .phClkLo
  else if p = codeRed then .phRed
  else if p = codeGrn then .phGrn
  else if p = codeClkHi then .phClkHi
  else .phReserved (p.setWidth 2)

/-- Decode one code by its format (R60). -/
def decode (c : Code) : Except DecodeError Instr :=
  match c.format with
  | .strobe =>
    if c.bits = 1#4 then .ok .tick
    else if c.bits = 0#4 then .error .noStrobe
    else .error .strayBits
  | .cmd => if c.bits.getLsbD 3 then .error .strayBits else .ok (decodeCmd (c.bits.setWidth 3))
  | .phase => .ok (decodePhase c.bits)

/-- The code of an instruction, from the same tables (R65, R68, R70 to R72). -/
def encode : Instr → Code
  | .tick => ⟨.strobe, 1#4⟩
  | .nop => ⟨.cmd, 0b000#4⟩
  | .init => ⟨.cmd, 0b001#4⟩
  | .enable => ⟨.cmd, 0b010#4⟩
  | .disable => ⟨.cmd, 0b011#4⟩
  | .setframe => ⟨.cmd, 0b100#4⟩
  | .reservedCmd5 => ⟨.cmd, 0b101#4⟩
  | .reservedCmd6 => ⟨.cmd, 0b110#4⟩
  | .reservedCmd7 => ⟨.cmd, 0b111#4⟩
  | .phIdle => ⟨.phase, codeIdle⟩
  | .phLatHi => ⟨.phase, codeLatHi⟩
  | .phAddr0 => ⟨.phase, codeAddr0⟩
  | .phAddr1 => ⟨.phase, codeAddr1⟩
  | .phAddr2 => ⟨.phase, codeAddr2⟩
  | .phLatLo => ⟨.phase, codeLatLo⟩
  | .phSyncReq => ⟨.phase, codeSyncReq⟩
  | .phSyncWait => ⟨.phase, codeSyncWait⟩
  | .phClkLo => ⟨.phase, codeClkLo⟩
  | .phRed => ⟨.phase, codeRed⟩
  | .phGrn => ⟨.phase, codeGrn⟩
  | .phClkHi => ⟨.phase, codeClkHi⟩
  | .phReserved x => ⟨.phase, 0b1100#4 ||| x.setWidth 4⟩

/-- Which port a numbered table word stands on. The table's three formats are 1, 3 and 4 bits wide; a row
counted in whole bytes has 8 for all of them, and then the words 0 to 7, which two or three formats
share, are read as command codes and 8 to 15 as phase codes (DESIGN CHOICE, log 6). -/
def tableCode (nbits w : Nat) : Option Code :=
  if nbits = 1 then (if w < 2 then some ⟨.strobe, BitVec.ofNat 4 w⟩ else none)
  else if nbits = 3 then (if w < 8 then some ⟨.cmd, BitVec.ofNat 4 w⟩ else none)
  else if nbits = 4 then (if w < 16 then some ⟨.phase, BitVec.ofNat 4 w⟩ else none)
  else if nbits = 8 then
    (if w < 8 then some ⟨.cmd, BitVec.ofNat 4 w⟩
     else if w < 16 then some ⟨.phase, BitVec.ofNat 4 w⟩ else none)
  else none

/-- The instruction that a table word stands for, if any (log 6). -/
def decodeTableWord (nbits w : Nat) : Option Instr :=
  match tableCode nbits w with
  | none => none
  | some c =>
    match decode c with
    | .ok i => some i
    | .error _ => none

end Sys2Proof
end

