-- ==== Sys2Proof/Machine/State.lean ====
section
/-! DEFINITION. The state of one instance of the block (spec/10_state.md R10), what a model carries beside
it (R27), the reasons a step can stop, and the state after `rst` (R31). -/

namespace Sys2Proof.Machine

/-- The eight output pins, in the order of their identifiers 0 to 7 (R14). -/
inductive Pin where
  | lat
  | a0
  | a1
  | a2
  | sclk
  | dr
  | dg
  | panelEn
deriving DecidableEq, Repr

/-- One entry of the trace (R63). -/
inductive Event where
  /-- The block writes level `v` to pin `p`. -/
  | out (p : Pin) (v : Level)
  /-- The block invokes the frame-complete hook with frame index `k`. -/
  | sync (k : Nat)
deriving DecidableEq, Repr

/-- The pin registers: the last level written to each pin (R14 to R19). -/
structure Pins where
  lat : Level
  a0 : Level
  a1 : Level
  a2 : Level
  sclk : Level
  dr : Level
  dg : Level
  /-- The logical value: 1 is asserted (R19). -/
  panelEn : Level
deriving DecidableEq, Repr

/-- The two memories the block owns (R40). The third space, SRC, is the operand `Inputs.srcBuf`. -/
inductive Space where
  | fb
  | acc
deriving DecidableEq, Repr

/-- One memory: the cells that hold a value, by byte address, addresses strictly rising. A cell that is not
listed holds no value (R31, R55). -/
abbrev Memory := List Host.Cell

/-- The state of the block. The first ten fields after `params` are the operation level's state and the
next three the cycle level's (R10); the rest is the model's (R27 and logs 3, 8, 9). -/
structure State where
  /-- The instance's open parameters (R4, R29). -/
  params : Params
  /-- The row cursor (R11). -/
  row : Row
  /-- The frame counter, below 2^FCW (R12). -/
  frame : Nat
  /-- The enable flag (R13). -/
  run : Level
  /-- The output pin registers (R14). -/
  pins : Pins
  /-- The accumulator array, address space ACC (R20). -/
  acc : Memory
  /-- The framebuffer, address space FB (R21). -/
  fb : Memory
  /-- The pending-tick latch (R23). -/
  tickPend : Level
  /-- The phase register (R24, R70). -/
  ph : BitVec 4
  /-- The column counter, below 2^CW (R24). -/
  col : Nat
  /-- The events emitted since the last `rst`, oldest first (R6, R27). -/
  trace : List Event
  /-- The events emitted before the last `rst` (U19, log 8). -/
  earlier : List Event
  /-- The lost-tick mark (R27, R153). -/
  lost : Bool
  /-- What stands on the input ports in the current step (R26). -/
  inp : Inputs
  /-- The stimuli that the environment has still to present (R74, log 3). -/
  stim : List Stimulus
deriving DecidableEq, Repr

/-- Why the machine stops with a fault. The hardware has no fault (R170); both are the model's. -/
inductive Fault where
  /-- Raised by the read of a cell that nothing has written since `rst`: it holds no value (R55, D18,
  U6, U12). Safe: the hardware goes on with whatever the storage holds, and no claim can rest on that. -/
  | uninitialisedRead (sp : Space) (addr : Nat)
  /-- Raised by an access outside addresses 0 to 16*COLS-1, which no rule produces (R42). Safe: such
  a cell does not exist. -/
  | noSuchCell (sp : Space) (addr : Nat)
deriving DecidableEq, Repr

/-- The two bulk operands, for naming a short one. -/
inductive OperandName where
  | srcBuf
  | seedBuf
deriving DecidableEq, Repr

/-- Why the model gives a stimulus no meaning. -/
inductive Refusal where
  /-- Raised by the dispatcher for an instruction with no meaning yet; no arm raises it. Safe. -/
  | notModelled (mnemonic : String)
  /-- Raised by INIT and SETFRAME, at either level, for an operand buffer shorter than 16 x COLS bytes:
  "undefined behavior" (R44, U1), which the ports' fixed size rules out. Safe. -/
  | shortOperand (which : OperandName)
  /-- Raised by a step whose code stands for no instruction; no fetched code does. Safe. -/
  | undecodable (why : DecodeError)
deriving DecidableEq, Repr

/-- The outcome of an operation on the state. -/
abbrev Result := Host.Outcome State Fault Refusal

/-- Every pin register at level 0 (R31). -/
def Pins.reset : Pins :=
  { lat := false, a0 := false, a1 := false, a2 := false, sclk := false, dr := false, dg := false,
    panelEn := false }

/-- The state after `rst` of an instance with parameters `p` (R31, R190): registers and pins 0, phase IDLE,
no cell of either memory with a value, the trace empty, nothing presented. -/
def State.resetOf (p : Params) : State :=
  { params := p, row := 0, frame := 0, run := false, pins := Pins.reset, acc := [], fb := [],
    tickPend := false, ph := codeIdle, col := 0, trace := [], earlier := [], lost := false,
    inp := Inputs.quiet, stim := [] }

/-- The state after `rst` of the chosen instance (R31; the parameters' values are log 2's). -/
def State.reset : State := State.resetOf Params.chosen

end Sys2Proof.Machine
end

