-- ==== Sys2Proof/Machine/Flags.lean ====
section
/-! DEFINITION. The combinational values of the block (spec/10_state.md R22, R25): the dither step's sum,
carry, emitted bit and residual, the sync decision, and the readiness of the command port. None is stored. -/

namespace Sys2Proof.Machine

/-- `s = zext_9(a) + zext_9(p)`: 9 bits, no wrap (R103). -/
def ditherSum (a p : Byte) : BitVec 9 := a.setWidth 9 + p.setWidth 9

/-- `carry = s[8]` (R22). -/
def carryOf (s : BitVec 9) : Level := s.getLsbD 8

/-- The comparator: the emitted bit is 1 exactly when `s < 256` (R104). -/
def emittedBit (s : BitVec 9) : Level := decide (s.toNat < 256)

/-- The write-back `s[7:0]` (R105). -/
def residualOf (s : BitVec 9) : Byte := s.setWidth 8

/-- `is_sync`: the row index, after the increment, is 7 (R22, R85). -/
def isSync (r : Row) : Bool := r == 7

/-- `CmdReady(ph, cmd)` (R125, R155). -/
def cmdReady (ph : BitVec 4) (cmd : BitVec 3) : Bool :=
  ph == codeIdle || ph == codeSyncWait && cmd == cmdSetframe

/-- `busy` (R25). -/
def busyOf (ph : BitVec 4) : Level := ph != codeIdle

/-- In phase `ph`, the cycle accepts the command on the port (R140). -/
def acceptIn (ph : BitVec 4) (inp : Inputs) : Bool := inp.cmdValid && cmdReady ph inp.cmd

/-- The cycle starts the pending tick (R140). -/
def startIn (ph : BitVec 4) (s : State) : Bool :=
  ph == codeIdle && !acceptIn ph s.inp && s.tickPend && s.run

end Sys2Proof.Machine
end

