-- ==== Sys2Proof/Machine/Ops.lean ====
section
/-! DEFINITION. The named operations over memories, pins and registers: the pseudocode primitives of
spec/00_scope.md R9 and spec/20_memory.md R42, each written once. The block takes no exception (R170); what
it has in that place is taking a tick (R176) and completing one (R177), which stand here as `takeTick` and
`setPh codeIdle`. -/

namespace Sys2Proof.Machine

/-! ## Sequencing of partial operations -/

/-- Go on with `k` from the next state; a fault or a refusal ends the operation. -/
def andThen (o : Result) (k : State → Result) : Result :=
  match o with
  | .next s => k s
  | .fault f => .fault f
  | .refused r => .refused r

/-! ## Memories -/

/-- The canonical form of a memory: addresses strictly rising. No listed cell can equal what an unlisted
one reads as, since an unlisted cell holds no value. -/
abbrev Memory.wf (m : Memory) : Prop := m.Pairwise (fun c d => c.1 < d.1)

/-- The byte that the cell at `a` holds, if it holds one (R42, R55). -/
def Memory.read (m : Memory) (a : Nat) : Option Byte :=
  match m with
  | [] => none
  | (b, v) :: t => if b = a then some v else Memory.read t a

/-- Put byte `v` into the cell at `a`; nothing else changes (R42). -/
def Memory.write (m : Memory) (a : Nat) (v : Byte) : Memory :=
  match m with
  | [] => [(a, v)]
  | (b, w) :: t =>
    if a < b then (a, v) :: (b, w) :: t
    else if a = b then (a, v) :: t
    else (b, w) :: Memory.write t a v

/-- Put the bytes of `bs` into the cells at `a`, `a + 1`, ..., in that order (the loop of R124). -/
def Memory.writeRun (m : Memory) (a : Nat) (bs : List Byte) : Memory :=
  match bs with
  | [] => m
  | b :: t => Memory.writeRun (m.write a b) (a + 1) t

/-- The number of cells of each space, 8 rows of COLS columns of 2 channels (R40). -/
def State.cells (s : State) : Nat := 16 * s.params.cols

/-- The memory behind a space. -/
def State.space (s : State) (sp : Space) : Memory :=
  match sp with
  | .fb => s.fb
  | .acc => s.acc

/-- `MemRead(space, a, 1)` (R42). A cell without a value and an address outside the space fault
(R55, log 7 and log 20). -/
def readCell (sp : Space) (a : Nat) (s : State) : Except Fault Byte :=
  if a < s.cells then
    match (s.space sp).read a with
    | some v => .ok v
    | none => .error (.uninitialisedRead sp a)
  else .error (.noSuchCell sp a)

/-- `MemWrite(ACC, a, 1, v)` (R42): the only single-byte write of any rule is the dither step's. -/
def storeAcc (a : Nat) (v : Byte) (s : State) : State := { s with acc := s.acc.write a v }

/-- Write the bytes of `bs` to FB from address 0 on (R121, R123, R124). -/
def fillFb (bs : List Byte) (s : State) : State := { s with fb := s.fb.writeRun 0 bs }

/-- Write the bytes of `bs` to ACC from address 0 on (R121). -/
def fillAcc (bs : List Byte) (s : State) : State := { s with acc := s.acc.writeRun 0 bs }

/-- `fb[r][c][ch] <- 0` for every cell (R121, R123). -/
def zeroFb (s : State) : State := fillFb (List.replicate s.cells 0) s

/-! ## Pins and the trace -/

/-- The identifier of a pin (R14). -/
def Pin.id : Pin → BitVec 3
  | .lat => 0
  | .a0 => 1
  | .a1 => 2
  | .a2 => 3
  | .sclk => 4
  | .dr => 5
  | .dg => 6
  | .panelEn => 7

/-- The level that a pin register holds. -/
def Pins.get (ps : Pins) : Pin → Level
  | .lat => ps.lat
  | .a0 => ps.a0
  | .a1 => ps.a1
  | .a2 => ps.a2
  | .sclk => ps.sclk
  | .dr => ps.dr
  | .dg => ps.dg
  | .panelEn => ps.panelEn

/-- The pin registers with one of them written. -/
def Pins.set (ps : Pins) (p : Pin) (v : Level) : Pins :=
  match p with
  | .lat => { ps with lat := v }
  | .a0 => { ps with a0 := v }
  | .a1 => { ps with a1 := v }
  | .a2 => { ps with a2 := v }
  | .sclk => { ps with sclk := v }
  | .dr => { ps with dr := v }
  | .dg => { ps with dg := v }
  | .panelEn => { ps with panelEn := v }

/-- The 4-bit word of a pin event, `P[2:0]` then `v`; a hook event has none (R63). -/
def Event.word : Event → Option (BitVec 4)
  | .out p v => some (p.id ++ BitVec.ofBool v)
  | .sync _ => none

/-- `emit Out(p, v)`: write the pin register and append the event, also when the level does not change
(R6, R9, R14). -/
def emit (p : Pin) (v : Level) (s : State) : State :=
  { s with pins := s.pins.set p v, trace := s.trace ++ [.out p v] }

/-- `emit Sync(frame)`: append the event that calls the Hook with the frame counter (R9, R85). -/
def emitSync (s : State) : State := { s with trace := s.trace ++ [.sync s.frame] }

/-! ## Registers -/

/-- `row <- (row + 1) mod 8`: a 3-bit add that drops the carry (R81). -/
def advanceRow (s : State) : State := { s with row := s.row + 1 }

/-- `row <- v` (R121, R123). -/
def setRow (v : Row) (s : State) : State := { s with row := v }

/-- `frame <- (frame + 1) mod 2^FCW` (R86). -/
def bumpFrame (s : State) : State := { s with frame := (s.frame + 1) % 2 ^ s.params.fcw }

/-- `frame <- 0` (R121). -/
def clearFrame (s : State) : State := { s with frame := 0 }

/-- `run <- v` (R122, R123). -/
def setRun (v : Level) (s : State) : State := { s with run := v }

/-- `tick_pend <- v` (R123, R153). -/
def setPend (v : Level) (s : State) : State := { s with tickPend := v }

/-- `ph <- p`: the sequencer's next phase (R9, R24). -/
def setPh (p : BitVec 4) (s : State) : State := { s with ph := p }

/-- `col <- 0` (R146). -/
def clearCol (s : State) : State := { s with col := 0 }

/-- CW, the width of the column counter: `max(1, ceil(log2 COLS))` (R4). -/
def colWidth (p : Params) : Nat := max 1 (if p.cols ≤ 1 then 0 else (p.cols - 1).log2 + 1)

/-- `col <- col + 1` in a register of CW bits (R152, log 15). -/
def advanceCol (s : State) : State := { s with col := (s.col + 1) % 2 ^ colWidth s.params }

/-- Set the lost-tick mark if `b`; nothing but the model clears it (R27, log 9). -/
def markLost (b : Bool) (s : State) : State := { s with lost := s.lost || b }

/-- What the environment presents in this step, and the stimuli that remain. -/
def present (inp : Inputs) (rest : List Stimulus) (s : State) : State :=
  { s with inp := inp, stim := rest }

/-! ## Taking a tick, and reset -/

/-- Tick entry: the cursor is incremented and the sequencer leaves IDLE; nothing is saved and no mode
changes (R141, R176). -/
def takeTick (s : State) : State := setPh codeLatHi (advanceRow s)

/-- The edge with `rst = 1`: every register takes its reset value, the memories hold no value, no event is
emitted; the events already emitted are kept apart (R31, R156, R190, U19; log 8, log 9). -/
def rstEdge (s : State) : State :=
  { s with
    row := 0, frame := 0, run := false, pins := Pins.reset, acc := [], fb := [], tickPend := false,
    ph := codeIdle, col := 0, trace := [], earlier := s.earlier ++ s.trace }

end Sys2Proof.Machine
end

