-- ==== Sys2Proof/Machine/Operands.lean ====
section
/-! DEFINITION. The operand forms of the block: the address of a cell (spec/20_memory.md R41), the Pixel
format (spec/30_encoding.md R61), and the two bulk operands (spec/30_encoding.md R66, R67). No operation
names a register or carries an immediate (spec/10_state.md R34, spec/30_encoding.md R64). -/

namespace Sys2Proof.Machine

/-- Channel 0 is red (R4, D19). -/
def chRed : Nat := 0

/-- Channel 1 is green (R4, D19). -/
def chGreen : Nat := 1

/-- `Addr(r, c, ch) = (r * COLS + c) * 2 + ch` (R41). -/
def cellAddr (p : Params) (r c ch : Nat) : Nat := (r * p.cols + c) * 2 + ch

/-- Format PIXEL: the red byte at the lower address, the green byte after it (R61). -/
structure Pixel where
  red : Byte
  green : Byte
deriving DecidableEq, Repr

/-- The Pixel that a memory holds at row `r`, column `c`, if both its bytes hold a value (R41, R61). -/
def pixelAt (p : Params) (m : Memory) (r c : Nat) : Option Pixel :=
  match m.read (cellAddr p r c chRed), m.read (cellAddr p r c chGreen) with
  | some red, some green => some { red := red, green := green }
  | _, _ => none

/-- The bytes of a bulk operand that the block reads: the first 16 x COLS, or a refusal where there are
fewer (R44, R66, R67, U1; log 13). -/
def withOperand (which : OperandName) (buf : List Byte) (s : State) (k : List Byte → Result) : Result :=
  if s.cells ≤ buf.length then k (buf.take s.cells) else .refused (.shortOperand which)

end Sys2Proof.Machine
end

