-- ==== Sys2Proof/Machine/Dither.lean ====
section
/-! DEFINITION. The dither engine (spec/41_dither_engine.md): DITHER, one column, RENDER. The operation
level's TICK and the cycle level's phases RED and GRN share `ditherTo`. -/

namespace Sys2Proof.Machine

/-- DITHER at the cell with byte address `a`: the emitted bit, and the state with the residual written back
(R102 to R105). -/
def dither (a : Nat) (s : State) : Except Fault (Level × State) :=
  match readCell .acc a s with
  | .error f => .error f
  | .ok av =>
    match readCell .fb a s with
    | .error f => .error f
    | .ok pv => .ok (emittedBit (ditherSum av pv), storeAcc a (residualOf (ditherSum av pv)) s)

/-- DITHER of the cell of row `row`, column `c`, channel `ch`, its bit written to `pin` (R100, R101). -/
def ditherTo (pin : Pin) (c ch : Nat) (s : State) : Result :=
  match dither (cellAddr s.params s.row.toNat c ch) s with
  | .error f => .fault f
  | .ok (b, t) => .next (emit pin b t)

/-- The four events of one column, red before green (R101). -/
def column (c : Nat) (s : State) : Result :=
  andThen (ditherTo .dr c chRed (emit .sclk false s)) fun t =>
    andThen (ditherTo .dg c chGreen t) fun u => .next (emit .sclk true u)

/-- `n` columns from column `c` on, in increasing order (R107). -/
def columnsFrom (c n : Nat) (s : State) : Result :=
  match n with
  | 0 => .next s
  | n + 1 => andThen (column c s) (columnsFrom (c + 1) n)

/-- RENDER of the row that `row` selects: columns 0 to COLS-1 (R100). -/
def render (s : State) : Result := columnsFrom 0 s.params.cols s

end Sys2Proof.Machine
end

