-- ==== Sys2Proof/Machine/RowScanner.lean ====
section
/-! DEFINITION. The row scanner (spec/40_row_scanner.md): the tick handler and the operation TICK. -/

namespace Sys2Proof.Machine

/-- SETFRAME's effect: every FB cell from the operand (R124). -/
def loadFrame (buf : List Byte) (s : State) : Result :=
  withOperand .srcBuf buf s fun bs => .next (fillFb bs s)

/-- Steps 1 to 3: latch high, the three address pins from the row index, latch low (R82, R83, R84). -/
def header (s : State) : State :=
  emit .lat false
    (emit .a2 (s.row.getLsbD 2) (emit .a1 (s.row.getLsbD 1) (emit .a0 (s.row.getLsbD 0) (emit .lat true s))))

/-- The SETFRAMEs that the Hook issues while it runs, in order (R92). -/
def runHook (frames : List (List Byte)) (s : State) : Result :=
  match frames with
  | [] => .next s
  | buf :: t => andThen (loadFrame buf s) (runHook t)

/-- The Hook's return continues the tick with the frame counter's step; a Hook that never returns leaves
the block in its sync phase for ever (R86, R92, U5; log 16). -/
def afterHook (returns : Bool) (s : State) : State :=
  if returns then bumpFrame s else setPh codeSyncWait s

/-- Step 4: the frame-complete call and the frame counter (R85). -/
def syncTick (s : State) : Result :=
  andThen (runHook s.inp.hook.frames (emitSync s)) fun t => .next (afterHook s.inp.hook.returns t)

/-- Steps 4 and 5: the sync row calls the Hook, every other row is rendered (R85, R87). -/
def scanRow (s : State) : Result := if isSync s.row then syncTick s else render s

/-- The tick handler, taken (R80, R81). -/
def tickBody (s : State) : Result := scanRow (header (advanceRow s))

/-- TICK: a strobe becomes a tick only while `run = 1`; with `run = 0` it has no effect at all
(R80, R93). -/
def execTick (s : State) : Result := if s.run then tickBody s else .next s

end Sys2Proof.Machine
end

