-- ==== Sys2Proof/Machine/Lifecycle.lean ====
section
/-! DEFINITION. The lifecycle operations (spec/42_lifecycle.md) as the operation level gives them: each one
atomic transition of the state. -/

namespace Sys2Proof.Machine

/-- INIT's effect: FB all 0, ACC from the seeds, `row` and `frame` 0 (R121). -/
def loadInit (s : State) : Result :=
  withOperand .seedBuf s.inp.seedBuf s fun bs =>
    .next (clearFrame (setRow 0 (fillAcc bs (zeroFb s))))

/-- ENABLE's effect (R122). -/
def assertPanel (s : State) : State := emit .panelEn true (setRun true s)

/-- DISABLE's first half: no tick may follow, the panel is de-asserted, the framebuffer is zeroed (R123). -/
def quiesce (s : State) : State := zeroFb (emit .panelEn false (setPend false (setRun false s)))

/-- NOP: no state change, no event (R120). -/
def execNop (s : State) : Result := .next s

/-- INIT: performed as written whether or not `run = 1` (R121, U3; log 10). -/
def execInit (s : State) : Result := loadInit s

/-- ENABLE: performed as written, also when already enabled and before any INIT (R122, D17; log 12). -/
def execEnable (s : State) : Result := .next (assertPanel s)

/-- DISABLE: stop the ticks, zero the framebuffer, cursor to 0, and one flush tick taken although
`run = 0` (R123). -/
def execDisable (s : State) : Result := tickBody (setRow 0 (quiesce s))

/-- SETFRAME: the whole framebuffer from the operand, nothing else (R124). -/
def execSetframe (s : State) : Result := loadFrame s.inp.srcBuf s

/-- Reserved command 0b101: accepted, no state change, no event (R71, R126; log 11). -/
def execReservedCmd5 (s : State) : Result := .next s

/-- Reserved command 0b110: accepted, no state change, no event (R71, R126; log 11). -/
def execReservedCmd6 (s : State) : Result := .next s

/-- Reserved command 0b111: accepted, no state change, no event (R71, R126; log 11). -/
def execReservedCmd7 (s : State) : Result := .next s

end Sys2Proof.Machine
end

