-- ==== Sys2Proof/Machine/Sequencer.lean ====
section
/-! DEFINITION. The cycle-level sequencer (spec/43_sequencer_microops.md): the twelve phases, the accept
cycle of a command, and the update of the pending-tick latch. Each phase's meaning is its phase rule; the
latch is updated after it, by the step (R140, R153). -/

namespace Sys2Proof.Machine

/-- DISABLE in its accept cycle: `row <- 1` is the operation level's `row <- 0` and the flush tick's
increment in one edge; the flush tick then runs through the phases (R154). `tick_pend` is the latch's
(R153). -/
def acceptDisable (s : State) : State :=
  setPh codeLatHi (setRow 1 (zeroFb (emit .panelEn false (setRun false s))))

/-- `ExecCmd(c)`, what the accept cycle does (R154). -/
def execCmd (c : BitVec 3) (s : State) : Result :=
  if c = cmdInit then loadInit s
  else if c = cmdEnable then .next (assertPanel s)
  else if c = cmdSetframe then loadFrame s.inp.srcBuf s
  else if c = cmdDisable then .next (acceptDisable s)
  else .next s

/-- IDLE: accept a command, else start a pending tick, else nothing (R141). -/
def execPhIdle (s : State) : Result :=
  if acceptIn codeIdle s.inp then execCmd s.inp.cmd s
  else if startIn codeIdle s then .next (takeTick s)
  else .next s

/-- LAT_HI: `emit Out(LAT, 1)` (R142). -/
def execPhLatHi (s : State) : Result := .next (setPh codeAddr0 (emit .lat true s))

/-- ADDR0: `emit Out(A0, row[0])` (R143). -/
def execPhAddr0 (s : State) : Result := .next (setPh codeAddr1 (emit .a0 (s.row.getLsbD 0) s))

/-- ADDR1: `emit Out(A1, row[1])` (R144). -/
def execPhAddr1 (s : State) : Result := .next (setPh codeAddr2 (emit .a1 (s.row.getLsbD 1) s))

/-- ADDR2: `emit Out(A2, row[2])` (R145). -/
def execPhAddr2 (s : State) : Result := .next (setPh codeLatLo (emit .a2 (s.row.getLsbD 2) s))

/-- LAT_LO: `emit Out(LAT, 0)`, then the branch on the sync row (R146). -/
def execPhLatLo (s : State) : Result :=
  if isSync s.row then .next (setPh codeSyncReq (emit .lat false s))
  else .next (setPh codeClkLo (clearCol (emit .lat false s)))

/-- SYNC_REQ: `emit Sync(frame)` (R147). -/
def execPhSyncReq (s : State) : Result := .next (setPh codeSyncWait (emitSync s))

/-- SYNC_WAIT: the Hook's SETFRAME if one is accepted, then its return if it returns; else wait on (R148). -/
def execPhSyncWait (s : State) : Result :=
  andThen (if acceptIn codeSyncWait s.inp then loadFrame s.inp.srcBuf s else .next s) fun t =>
    if s.inp.syncAck then .next (setPh codeIdle (bumpFrame t)) else .next (setPh codeSyncWait t)

/-- CLK_LO: `emit Out(SCLK, 0)` (R149). -/
def execPhClkLo (s : State) : Result := .next (setPh codeRed (emit .sclk false s))

/-- RED: dither the red cell of column `col`, its bit on DR (R150). -/
def execPhRed (s : State) : Result :=
  andThen (ditherTo .dr s.col chRed s) fun t => .next (setPh codeGrn t)

/-- GRN: dither the green cell of column `col`, its bit on DG (R151). -/
def execPhGrn (s : State) : Result :=
  andThen (ditherTo .dg s.col chGreen s) fun t => .next (setPh codeClkHi t)

/-- CLK_HI: `emit Out(SCLK, 1)`, then the next column or the end of the tick (R152). -/
def execPhClkHi (s : State) : Result :=
  if s.col = s.params.cols - 1 then .next (setPh codeIdle (emit .sclk true s))
  else .next (setPh codeClkLo (advanceCol (emit .sclk true s)))

/-- A reserved phase code, if ever forced: the next state is IDLE, no event and no other change (R72,
log 14). -/
def execPhReserved (_x : BitVec 2) (s : State) : Result := .next (setPh codeIdle s)

/-- The command accepted in this cycle is DISABLE (R153). -/
def acceptsDisable (s : State) : Bool := acceptIn s.ph s.inp && s.inp.cmd == cmdDisable

/-- `tick_pend` after the cycle that began in `s`: a start clears it, a strobe under `run = 1` sets it, an
accepted DISABLE clears it, in that order (R153). -/
def nextPend (s : State) : Level :=
  if acceptsDisable s then false
  else if s.inp.tick && s.run then true
  else if startIn s.ph s then false
  else s.tickPend

/-- The cycle that began in `s` loses a tick: a strobe is merged into one already pending (R23, R153;
log 9). -/
def losesTick (s : State) : Bool :=
  s.inp.tick && s.run && s.tickPend && !startIn s.ph s && !acceptsDisable s

/-- The end of a cycle that began in `s`: the latch and the lost-tick mark (R140, R153). -/
def latchTick (s : State) (t : State) : State := markLost (losesTick s) (setPend (nextPend s) t)

end Sys2Proof.Machine
end

