-- ==== Sys2Proof/Machine/Dispatch.lean ====
section
/-! DEFINITION. The dispatcher: one arm per constructor of Instr, each one direct call of its meaning. -/

namespace Sys2Proof.Machine

def exec (i : Instr) (s : State) : Host.Outcome State Fault Refusal :=
  match i with
  | .tick => Sys2Proof.Machine.execTick s
  | .nop => Sys2Proof.Machine.execNop s
  | .init => Sys2Proof.Machine.execInit s
  | .enable => Sys2Proof.Machine.execEnable s
  | .disable => Sys2Proof.Machine.execDisable s
  | .setframe => Sys2Proof.Machine.execSetframe s
  | .reservedCmd5 => Sys2Proof.Machine.execReservedCmd5 s
  | .reservedCmd6 => Sys2Proof.Machine.execReservedCmd6 s
  | .reservedCmd7 => Sys2Proof.Machine.execReservedCmd7 s
  | .phIdle => Sys2Proof.Machine.execPhIdle s
  | .phLatHi => Sys2Proof.Machine.execPhLatHi s
  | .phAddr0 => Sys2Proof.Machine.execPhAddr0 s
  | .phAddr1 => Sys2Proof.Machine.execPhAddr1 s
  | .phAddr2 => Sys2Proof.Machine.execPhAddr2 s
  | .phLatLo => Sys2Proof.Machine.execPhLatLo s
  | .phSyncReq => Sys2Proof.Machine.execPhSyncReq s
  | .phSyncWait => Sys2Proof.Machine.execPhSyncWait s
  | .phClkLo => Sys2Proof.Machine.execPhClkLo s
  | .phRed => Sys2Proof.Machine.execPhRed s
  | .phGrn => Sys2Proof.Machine.execPhGrn s
  | .phClkHi => Sys2Proof.Machine.execPhClkHi s
  | .phReserved x => Sys2Proof.Machine.execPhReserved x s

end Sys2Proof.Machine
end

