-- ==== Sys2Proof/Machine/Fetch.lean ====
section
/-! DEFINITION. How the next instruction of the model is selected (logs 1, 3 and 4). The block fetches
nothing (spec/00_scope.md R5): at the cycle level the phase register says what the cycle does
(spec/10_state.md R24), at the operation level the environment's stimulus does (spec/30_encoding.md R74). -/

namespace Sys2Proof.Machine

/-- What the coming step is: an operation or a clock cycle, the code that stands for it, the input ports,
and the stimuli that remain after it. -/
structure Turn where
  clocked : Bool
  code : Code
  inp : Inputs
  rest : List Stimulus
deriving DecidableEq, Repr

/-- A clock cycle in the phase that `ph` holds. -/
def clockTurn (s : State) (inp : Inputs) (rest : List Stimulus) : Turn :=
  { clocked := true, code := ⟨.phase, s.ph⟩, inp := inp, rest := rest }

/-- An operation-level tick strobe, code 1 of format STROBE (R68). -/
def tickTurn (h : HookRun) (rest : List Stimulus) : Turn :=
  { clocked := false, code := ⟨.strobe, 1#4⟩, inp := { Inputs.quiet with hook := h }, rest := rest }

/-- An operation-level command, its word on format CMD and its operands on the ports (R64). -/
def commandTurn (c : BitVec 3) (src seed : List Byte) (rest : List Stimulus) : Turn :=
  { clocked := false, code := ⟨.cmd, c.setWidth 4⟩,
    inp := { Inputs.quiet with cmdValid := true, cmd := c, srcBuf := src, seedBuf := seed }, rest := rest }

/-- The ports with the command `c` and its operands held on the command port (R125): `cmd_valid` is 1. A cycle
that itself presents a command (the Hook's, in SYNC_WAIT) has the one port; its sharing between Host and Hook
is outside the block (D3; log 17). -/
def holdCommand (c : BitVec 3) (src seed : List Byte) (inp : Inputs) : Inputs :=
  if inp.cmdValid then inp
  else { inp with cmdValid := true, cmd := c, srcBuf := src, seedBuf := seed }

/-- The ports of a cycle in which the stimulus `x` waits: a command is held (R125), a tick is not strobed
(log 4). -/
def holdStimulus (x : Stimulus) (inp : Inputs) : Inputs :=
  match x with
  | .tick _ => inp
  | .command c src seed => holdCommand c src seed inp
  | .cycle _ => inp

/-- The ports of the first clock cycle that the environment presents among `xs`, quiet where it presents none. -/
def cyclePorts (xs : List Stimulus) : Inputs :=
  match xs with
  | [] => Inputs.quiet
  | .cycle inp :: _ => inp
  | .tick _ :: t => cyclePorts t
  | .command _ _ _ :: t => cyclePorts t

/-- The stimuli `xs` without that cycle: the operations keep their order (R125). -/
def afterCycle (xs : List Stimulus) : List Stimulus :=
  match xs with
  | [] => []
  | .cycle _ :: t => t
  | .tick h :: t => .tick h :: afterCycle t
  | .command c src seed :: t => .command c src seed :: afterCycle t

/-- A clock cycle in which `x` waits in front: the clock runs with the ports that the environment presents
behind it, `sync_ack` among them, and `x` keeps its place (R125, R148; log 4). -/
def waitTurn (s : State) (x : Stimulus) (rest : List Stimulus) : Turn :=
  clockTurn s (holdStimulus x (cyclePorts rest)) (x :: afterCycle rest)

/-- The coming step. An operation is taken only when the sequencer is ready for it: a tick in IDLE (R93), a
command where `CmdReady` says so (R125); until then it waits. With no stimulus left the clock runs on with
every input 0 (log 3, log 4). -/
def nextTurn (s : State) : Turn :=
  match s.stim with
  | [] => clockTurn s Inputs.quiet []
  | .cycle inp :: rest => clockTurn s inp rest
  | .tick h :: rest => if s.ph = codeIdle then tickTurn h rest else waitTurn s (.tick h) rest
  | .command c src seed :: rest =>
    if cmdReady s.ph c then commandTurn c src seed rest else waitTurn s (.command c src seed) rest

/-- The state in which the coming step runs its instruction: the turn's inputs on the ports. -/
def presented (s : State) : State := present (nextTurn s).inp (nextTurn s).rest s

/-- What surrounds the instruction: after a clock cycle that began in `s` the latch is updated (R140, R153);
an operation is complete by itself. -/
def endTurn (clocked : Bool) (s : State) (o : Result) : Result :=
  if clocked then andThen o (fun t => .next (latchTick s t)) else o

/-- A buffer of 16 x COLS zero bytes. -/
def zeroOperand (s : State) : List Byte := List.replicate s.cells 0

/-- A command whose operand words are zeros, placed in front with the sequencer idle. -/
def placeCommand (c : BitVec 3) (s : State) : State :=
  { s with ph := codeIdle, stim := .command c (zeroOperand s) (zeroOperand s) :: s.stim }

/-- A tick strobe whose Hook does nothing, placed in front with the sequencer idle. -/
def placeTick (s : State) : State := { s with ph := codeIdle, stim := .tick HookRun.idle :: s.stim }

/-- The sequencer put into a phase, a clock cycle with every input 0 in front. -/
def placePhase (p : BitVec 4) (s : State) : State :=
  { s with ph := p, stim := .cycle Inputs.quiet :: s.stim }

/-- Put a table word where the coming step takes its instruction from (log 5, log 6). -/
def placeCode (c : Code) (s : State) : State :=
  match c.format with
  | .strobe => placeTick s
  | .cmd => placeCommand (c.bits.setWidth 3) s
  | .phase => placePhase c.bits s

end Sys2Proof.Machine
end

