-- ==== Sys2Proof/Machine/Step.lean ====
section
/-! DEFINITION. One step: present the coming turn's inputs, decode its code, run the instruction, and, for a
clock cycle, update the latch (spec/43_sequencer_microops.md R140). -/

namespace Sys2Proof.Machine

/-- One step of the machine: one operation, or one clock cycle, in which `rst` wins over everything
(R5, R140, R156). -/
def step (s : State) : Host.Outcome State Fault Refusal :=
  if (nextTurn s).clocked && (nextTurn s).inp.rst then .next (rstEdge (presented s))
  else
    match decode (nextTurn s).code with
    | .error e => .refused (.undecodable e)
    | .ok i => endTurn (nextTurn s).clocked (presented s) (exec i (presented s))

/-- The state with a table word placed so that the very next step runs it (log 5, log 6); a word that
stands on no port changes nothing. -/
def State.withFetchWord (s : State) (nbits w : Nat) : State :=
  match tableCode nbits w with
  | some c => placeCode c s
  | none => s

end Sys2Proof.Machine
end

