-- ==== Sys2Proof/Machine/Outputs.lean ====
section
/-! DEFINITION. The output ports, combinational in the state and the inputs (spec/10_state.md R25,
spec/43_sequencer_microops.md R155). -/

namespace Sys2Proof.Machine

/-- The levels on the output ports. `panelEn` is the electrical level on the wire (R19). -/
structure Outputs where
  syncReq : Level
  frameIdx : Nat
  cmdReady : Level
  busy : Level
  lat : Level
  a0 : Level
  a1 : Level
  a2 : Level
  sclk : Level
  dr : Level
  dg : Level
  panelEn : Level
deriving DecidableEq, Repr

/-- The electrical level of PANEL_EN: PANEL_EN_ACTIVE when the register is 1, its opposite when it is 0
(R19, R155). -/
def panelWire (p : Params) (logical : Level) : Level :=
  if logical then p.panelEnActive else !p.panelEnActive

/-- The output ports in a state (R155). -/
def outputs (s : State) : Outputs :=
  { syncReq := s.ph == codeSyncReq
    frameIdx := s.frame
    cmdReady := cmdReady s.ph s.inp.cmd
    busy := busyOf s.ph
    lat := s.pins.lat
    a0 := s.pins.a0
    a1 := s.pins.a1
    a2 := s.pins.a2
    sclk := s.pins.sclk
    dr := s.pins.dr
    dg := s.pins.dg
    panelEn := panelWire s.params s.pins.panelEn }

end Sys2Proof.Machine
end

