-- ==== Sys2Proof/WellFormed.lean ====
section
/-! DEFINITION. What the spec asks of the things it is given: parameters inside their domains (R4), codes
inside their port's width (R60), operand buffers of exactly 16 x COLS bytes (R44, R66, R67, U1). -/

namespace Sys2Proof

/-- COLS and FCW are at least 1 (R4). -/
def Params.wf (p : Params) : Bool := decide (1 ≤ p.cols) && decide (1 ≤ p.fcw)

/-- The width of each code-carrying format (R60). -/
def Format.width : Format → Nat
  | .strobe => 1
  | .cmd => 3
  | .phase => 4

/-- No bit stands outside the port's width. -/
def Code.wf (c : Code) : Bool := decide (c.bits.toNat < 2 ^ c.format.width)

/-- An operand buffer holds exactly 16 x COLS bytes, the fixed size of its port (R26, U1). -/
def operandExact (p : Params) (buf : List Byte) : Bool := decide (buf.length = 16 * p.cols)

/-- Every SETFRAME the Hook issues has an operand of the port's size. -/
def HookRun.wf (p : Params) (h : HookRun) : Bool := h.frames.all (operandExact p)

/-- The instruction together with the operands presented beside it: INIT needs its seeds, SETFRAME its
source buffer, TICK a Hook whose operands are right, and a clock cycle whatever an accepted command reads. -/
def Instr.wf (p : Params) (inp : Inputs) : Instr → Bool
  | .tick => inp.hook.wf p
  | .init => operandExact p inp.seedBuf
  | .setframe => operandExact p inp.srcBuf
  | .phIdle => operandExact p inp.srcBuf && operandExact p inp.seedBuf || !inp.cmdValid
  | .phSyncWait => operandExact p inp.srcBuf || !inp.cmdValid
  | .nop => true
  | .enable => true
  | .disable => true
  | .reservedCmd5 => true
  | .reservedCmd6 => true
  | .reservedCmd7 => true
  | .phLatHi => true
  | .phAddr0 => true
  | .phAddr1 => true
  | .phAddr2 => true
  | .phLatLo => true
  | .phSyncReq => true
  | .phClkLo => true
  | .phRed => true
  | .phGrn => true
  | .phClkHi => true
  | .phReserved _ => true

/-- A stimulus whose operands have the port's size wherever a command of it may read them. -/
def Stimulus.wf (p : Params) : Stimulus → Bool
  | .tick h => h.wf p
  | .command _ src seed => operandExact p src && operandExact p seed
  | .cycle inp => operandExact p inp.srcBuf && operandExact p inp.seedBuf || !inp.cmdValid

end Sys2Proof
end

