-- ==== Sys2Proof/Safety.lean ====
section
/-! DEFINITION. What counts as a safe run, in the terms that claims use: the contract of the environment
(spec/60_exceptions.md R171, spec/93_implementation_defined.md U1 to U8), initialisation (R55), the deadline
(R194), and the invariant of every reachable state (spec/10_state.md R30). -/

namespace Sys2Proof.Machine

/-- Every cell of a memory holds a value. -/
def allDefined (s : State) (m : Memory) : Prop := ∀ a, a < s.cells → (m.read a).isSome

/-- Both memories hold a value in every cell: the state after an INIT (R55, R191). -/
def State.Initialised (s : State) : Prop := allDefined s s.acc ∧ allDefined s s.fb

/-- A use outside the source's contract (R171). The hardware performs each of them; a claim that wants to
stay inside the contract takes `contractViolation i s = none` as a premise. -/
inductive Violation where
  /-- U1: an operand that is not exactly 16 x COLS bytes. -/
  | wrongOperandSize
  /-- U3: INIT while `run = 1`. -/
  | initWhileRunning
  /-- U5: a Hook that never returns. -/
  | hookNeverReturns
  /-- U6: TICK, ENABLE or DISABLE before the first INIT since `rst`. -/
  | useBeforeInit
  /-- U8: a reserved command code. -/
  | reservedCommand
deriving DecidableEq, Repr

/-- ACC holds a value at address 0; only INIT gives it one, with every other cell (U6's "initialized"). -/
def initSeen (s : State) : Bool := (s.acc.read 0).isSome

/-- The contract violation of an operation-level instruction, if any (U1, U3, U5, U6, U8). U2 and U4 cannot be
written down (no port, no such Hook action), U7 is the mark `lost`. -/
def contractViolation (i : Instr) (s : State) : Option Violation :=
  match i with
  | .tick =>
    if !s.run then none
    else if !initSeen s then some .useBeforeInit
    else if !s.inp.hook.wf s.params then some .wrongOperandSize
    else if !s.inp.hook.returns then some .hookNeverReturns
    else none
  | .init =>
    if s.run then some .initWhileRunning
    else if !operandExact s.params s.inp.seedBuf then some .wrongOperandSize
    else none
  | .enable => if initSeen s then none else some .useBeforeInit
  | .disable => if initSeen s then none else some .useBeforeInit
  | .setframe => if operandExact s.params s.inp.srcBuf then none else some .wrongOperandSize
  | .reservedCmd5 => some .reservedCommand
  | .reservedCmd6 => some .reservedCommand
  | .reservedCmd7 => some .reservedCommand
  | .nop => none
  | .phIdle => none
  | .phLatHi => none
  | .phAddr0 => none
  | .phAddr1 => none
  | .phAddr2 => none
  | .phLatLo => none
  | .phSyncReq => none
  | .phSyncWait => none
  | .phClkLo => none
  | .phRed => none
  | .phGrn => none
  | .phClkHi => none
  | .phReserved _ => none

/-- TICK_PERIOD leaves room for a render tick: more than `6 + 4*COLS` clock periods (R158, R194). -/
def deadlineMet (p : Params) : Prop := 6 + 4 * p.cols < p.tickPeriod

/-- A memory is canonical and lists no address outside its space (R40, R42). -/
def Memory.inSpace (cells : Nat) (m : Memory) : Prop := m.wf ∧ ∀ c ∈ m, c.1 < cells

/-- The phases in which a tick has not yet taken its branch: LAT_HI to LAT_LO. -/
def inHeader (ph : BitVec 4) : Prop :=
  ph = codeLatHi ∨ ph = codeAddr0 ∨ ph = codeAddr1 ∨ ph = codeAddr2 ∨ ph = codeLatLo

/-- The phases of a sync tick after its branch. -/
def inSync (ph : BitVec 4) : Prop := ph = codeSyncReq ∨ ph = codeSyncWait

/-- The phases of the column loop. -/
def inColumns (ph : BitVec 4) : Prop := ph = codeClkLo ∨ ph = codeRed ∨ ph = codeGrn ∨ ph = codeClkHi

/-- The invariant of every reachable state: the parameters are in their domains; the counters fit their
registers (R11, R12, R24, R152); the phase is one of the twelve and agrees with the row (R72, R159); both
memories are canonical; a tick is pending only while enabled (R153); `pin.PANEL_EN = run` (R30 item 5);
outside the header of a tick but for its latched part LAT is low (R30 item 4, R88); and the flush tick of a
disabled block is row 1's (R123). -/
structure State.Inv (s : State) : Prop where
  params : s.params.wf = true
  frame : s.frame < 2 ^ s.params.fcw
  col : s.col < s.params.cols
  phase : s.ph = codeIdle ∨ inHeader s.ph ∨ (inSync s.ph ∧ s.row = 7) ∨ (inColumns s.ph ∧ s.row ≠ 7)
  acc : s.acc.inSpace s.cells
  fb : s.fb.inSpace s.cells
  pend : s.tickPend = true → s.run = true
  panel : s.pins.panelEn = s.run
  latch : s.pins.lat = true ↔
    s.ph = codeAddr0 ∨ s.ph = codeAddr1 ∨ s.ph = codeAddr2 ∨ s.ph = codeLatLo
  flush : s.run = false → s.ph ≠ codeIdle → s.row = 1

/-- Every stimulus still to be presented has operands of the ports' size (R26). -/
def State.StimWf (s : State) : Prop := ∀ x ∈ s.stim, x.wf s.params = true

/-- A step completes: it ends in a next state. -/
def SafeStep (s : State) : Prop := ∃ t, step s = .next t

/-- `n` steps, stopping at the first fault or refusal. -/
def runSteps (n : Nat) (s : State) : Result :=
  match n with
  | 0 => .next s
  | n + 1 => andThen (step s) (runSteps n)

/-- The coming step is a clock cycle with `rst = 1`. -/
def State.RstTurn (s : State) : Prop := (nextTurn s).clocked = true ∧ (nextTurn s).inp.rst = true

/-! ## What a visit, a column and a header are due to show, in the spec's own arithmetic -/

/-- The bit due for residual `a` and pixel byte `p`: 1 exactly when `a + p < 256` (R104). -/
def dueBit (a p : Byte) : Level := decide (a.toNat + p.toNat < 256)

/-- The residual due: `(a + p) mod 256` (R105). -/
def dueResidual (a p : Byte) : Byte := BitVec.ofNat 8 (a.toNat + p.toNat)

/-- The five events that every tick begins with, for the row index `r` (R88). -/
def headerEvents (r : Row) : List Event :=
  [.out .lat true, .out .a0 (r.getLsbD 0), .out .a1 (r.getLsbD 1), .out .a2 (r.getLsbD 2),
    .out .lat false]

/-- The four events of column `c`, where `A c ch` is the residual and `P c ch` the pixel byte (R101). -/
def columnEvents (A P : Nat → Nat → Byte) (c : Nat) : List Event :=
  [.out .sclk false, .out .dr (dueBit (A c 0) (P c 0)), .out .dg (dueBit (A c 1) (P c 1)),
    .out .sclk true]

/-- Row `r` holds the residuals `A` in ACC and the pixel bytes `P` in FB. -/
def RowHolds (p : Params) (acc fb : Memory) (r : Nat) (A P : Nat → Nat → Byte) : Prop :=
  ∀ c ch, c < p.cols → ch < 2 →
    acc.read (cellAddr p r c ch) = some (A c ch) ∧ fb.read (cellAddr p r c ch) = some (P c ch)

/-- The level of pin `p` after the events `es`, if it was `l` before them (R14). -/
def pinAfter (p : Pin) (l : Level) (es : List Event) : Level :=
  match es with
  | [] => l
  | .out q v :: t => pinAfter p (if q = p then v else l) t
  | .sync _ :: t => pinAfter p l t

/-- The frame indices with which the Hook is called in `es`, in order (R63, R85). -/
def syncArgs (es : List Event) : List Nat :=
  match es with
  | [] => []
  | .out _ _ :: t => syncArgs t
  | .sync k :: t => k :: syncArgs t

/-- The state at the operation level: the first ten lines of R10. -/
structure OpView where
  row : Row
  frame : Nat
  run : Level
  pins : Pins
  acc : Memory
  fb : Memory
deriving DecidableEq, Repr

/-- What a state shows at the operation level (R10, R157). -/
def State.opView (s : State) : OpView :=
  { row := s.row, frame := s.frame, run := s.run, pins := s.pins, acc := s.acc, fb := s.fb }

end Sys2Proof.Machine
end

