-- ==== Sys2Proof/Certificates/Slice0/Obligations.lean ====
section
/-! DEFINITION. The statements about the model, each a `def Obligations.<Name> : Prop`. Each docstring names the
rule of spec/ it formalises, or says that it is the model's choice and names the log entry. Open parameters
(COLS, FCW, PANEL_EN_ACTIVE) are fields of the state, so "for every state" is "for every value of them". -/

open Sys2Proof Sys2Proof.Machine

/-! ## Encoding -/

/-- Decoding the code of any instruction gives it back, and the code fits its port (R60, R65, R68, R70). -/
def Obligations.EncodedInstructionDecodes : Prop :=
  ∀ i : Instr, decode (encode i) = .ok i ∧ (encode i).wf = true

/-- Every code that decodes is the code of what it decodes to: no two codes of one port share an
instruction, and no bit of a code is dropped (R65, R70 to R72). -/
def Obligations.DecodedCodeIsItsEncoding : Prop :=
  ∀ (c : Code) (i : Instr), decode c = .ok i → encode i = c

/-- Every row of R65, R68 and R70, written out from the spec's tables, and the reserved words of R71 and R72. -/
def Obligations.SpecCodesDecode : Prop :=
  decode ⟨.strobe, 0b1#4⟩ = .ok .tick ∧
  decode ⟨.cmd, 0b000#4⟩ = .ok .nop ∧ decode ⟨.cmd, 0b001#4⟩ = .ok .init ∧
  decode ⟨.cmd, 0b010#4⟩ = .ok .enable ∧ decode ⟨.cmd, 0b011#4⟩ = .ok .disable ∧
  decode ⟨.cmd, 0b100#4⟩ = .ok .setframe ∧ decode ⟨.cmd, 0b101#4⟩ = .ok .reservedCmd5 ∧
  decode ⟨.cmd, 0b110#4⟩ = .ok .reservedCmd6 ∧ decode ⟨.cmd, 0b111#4⟩ = .ok .reservedCmd7 ∧
  decode ⟨.phase, 0b0000#4⟩ = .ok .phIdle ∧ decode ⟨.phase, 0b0001#4⟩ = .ok .phLatHi ∧
  decode ⟨.phase, 0b0010#4⟩ = .ok .phAddr0 ∧ decode ⟨.phase, 0b0011#4⟩ = .ok .phAddr1 ∧
  decode ⟨.phase, 0b0100#4⟩ = .ok .phAddr2 ∧ decode ⟨.phase, 0b0101#4⟩ = .ok .phLatLo ∧
  decode ⟨.phase, 0b0110#4⟩ = .ok .phSyncReq ∧ decode ⟨.phase, 0b0111#4⟩ = .ok .phSyncWait ∧
  decode ⟨.phase, 0b1000#4⟩ = .ok .phClkLo ∧ decode ⟨.phase, 0b1001#4⟩ = .ok .phRed ∧
  decode ⟨.phase, 0b1010#4⟩ = .ok .phGrn ∧ decode ⟨.phase, 0b1011#4⟩ = .ok .phClkHi ∧
  decode ⟨.phase, 0b1100#4⟩ = .ok (.phReserved 0b00#2) ∧
  decode ⟨.phase, 0b1101#4⟩ = .ok (.phReserved 0b01#2) ∧
  decode ⟨.phase, 0b1110#4⟩ = .ok (.phReserved 0b10#2) ∧
  decode ⟨.phase, 0b1111#4⟩ = .ok (.phReserved 0b11#2)

/-! ## A step runs the decoded instruction (logs 1, 3, 4: how a step is selected is the model's) -/

/-- Whatever the coming step is, its code stands for an instruction. -/
def Obligations.EveryFetchedCodeDecodes : Prop :=
  ∀ s : State, ∃ i, decode (nextTurn s).code = .ok i

/-- A clock cycle without `rst`, presented or, with no stimulus left, with every input 0, runs the instruction
that the phase register holds, and then updates the latch and the lost-tick mark (R140; that the clock runs on
with no stimulus left is log 3, the mark log 9). -/
def Obligations.ClockCycleRunsItsPhase : Prop :=
  ∀ (s : State) (inp : Inputs) (rest : List Stimulus) (i : Instr),
    (s.stim = .cycle inp :: rest ∨ s.stim = [] ∧ inp = Inputs.quiet ∧ rest = []) → inp.rst = false →
    decode ⟨.phase, s.ph⟩ = .ok i →
    step s = andThen (exec i { s with inp := inp, stim := rest }) fun t =>
      .next { t with
        tickPend := nextPend { s with inp := inp, stim := rest }
        lost := t.lost || losesTick { s with inp := inp, stim := rest } }

/-- A tick strobe of the operation level, presented while no operation is in progress, runs TICK (R93; that it is
one step of the model is log 1). -/
def Obligations.TickStrobeRunsTick : Prop :=
  ∀ (s : State) (h : HookRun) (rest : List Stimulus),
    s.stim = .tick h :: rest → s.ph = 0b0000#4 →
    step s = exec .tick { s with inp := { Inputs.quiet with hook := h }, stim := rest }

/-- A command of the operation level, presented while it is ready, runs the operation its word stands for
(R125; that it is one step of the model is log 1). -/
def Obligations.ReadyCommandRunsItsOperation : Prop :=
  ∀ (s : State) (c : BitVec 3) (src seed : List Byte) (rest : List Stimulus) (i : Instr),
    s.stim = .command c src seed :: rest → decode ⟨.cmd, c.setWidth 4⟩ = .ok i →
    s.ph = 0b0000#4 ∨ s.ph = 0b0111#4 ∧ c = 0b100#3 →
    step s = exec i { s with
      inp := { Inputs.quiet with cmdValid := true, cmd := c, srcBuf := src, seedBuf := seed }
      stim := rest }

/-- An operation that the sequencer is not ready for waits in front, and a clock cycle runs: the first one that the
environment presents behind it, with its ports, or a quiet one where it presents none. A waiting command is held
on the command port, `cmd_valid` 1, unless that cycle presents a command of its own; every other operation keeps
its place (R93, R125; which cycles run meanwhile is log 4, the shared port log 17). -/
def Obligations.UnreadyOperationWaits : Prop :=
  ∀ (s : State) (x : Stimulus) (behind ops tail : List Stimulus) (inp ports : Inputs) (i : Instr),
    s.stim = x :: behind → decode ⟨.phase, s.ph⟩ = .ok i → inp.rst = false → (∀ y, .cycle y ∉ ops) →
    (behind = ops ++ .cycle inp :: tail ∨ behind = ops ∧ inp = Inputs.quiet ∧ tail = []) →
    ((∃ h, x = .tick h) ∧ s.ph ≠ 0b0000#4 ∧ ports = inp ∨
      ∃ c src seed, x = .command c src seed ∧ s.ph ≠ 0b0000#4 ∧ ¬(s.ph = 0b0111#4 ∧ c = 0b100#3) ∧
        ports = if inp.cmdValid = true then inp else
          { inp with cmdValid := true, cmd := c, srcBuf := src, seedBuf := seed }) →
    step s = andThen (exec i { s with inp := ports, stim := x :: (ops ++ tail) }) fun t =>
      .next { t with
        tickPend := nextPend { s with inp := ports, stim := x :: (ops ++ tail) }
        lost := t.lost || losesTick { s with inp := ports, stim := x :: (ops ++ tail) } }

/-- A command that waits for the Hook is not lost: it is held on the port while the Hook runs, the cycle that
samples the Hook's return completes the sync tick, and the next step performs the command (R125, R148, P6). The
model's choice: that the clock cycle presented behind the waiting command runs first (log 4), with the command on
the one port, since that cycle presents none of its own (log 17). -/
def Obligations.WaitingCommandRunsWhenTheHookReturns : Prop :=
  ∀ (s : State) (c : BitVec 3) (src seed : List Byte) (inp : Inputs) (rest : List Stimulus) (i : Instr),
    s.ph = 0b0111#4 → c ≠ 0b100#3 → s.stim = .command c src seed :: .cycle inp :: rest →
    inp.rst = false → inp.cmdValid = false → inp.syncAck = true → decode ⟨.cmd, c.setWidth 4⟩ = .ok i →
    ∃ t, step s = .next t ∧
      t = { s with
        ph := 0b0000#4, frame := (s.frame + 1) % 2 ^ s.params.fcw
        tickPend := (inp.tick && s.run) || s.tickPend
        lost := s.lost || inp.tick && s.run && s.tickPend
        inp := { inp with cmdValid := true, cmd := c, srcBuf := src, seedBuf := seed }
        stim := .command c src seed :: rest } ∧
      step t = exec i { t with
        inp := { Inputs.quiet with cmdValid := true, cmd := c, srcBuf := src, seedBuf := seed }
        stim := rest }

/-- No operation is lost or reordered: a step leaves the operations still to come as they are, in a clock cycle, or
takes the one in front, and that only when the sequencer is ready for it. R125 says so of commands, and R93 that
no TICK is taken while another operation is in progress. The model's choice, log 4: that a waiting TICK is
neither lost nor strobed, and that the clock cycles behind a waiting operation run before it. -/
def Obligations.OperationsAreTakenInOrder : Prop :=
  ∀ s t : State, step s = .next t →
    ((nextTurn s).clocked = true ∧ t.stim.filter Stimulus.isOperation = s.stim.filter Stimulus.isOperation) ∨
    ((nextTurn s).clocked = false ∧ ∃ x, s.stim = x :: t.stim ∧
      ((∃ h, x = .tick h) ∧ s.ph = 0b0000#4 ∨
        ∃ c src seed, x = .command c src seed ∧ (s.ph = 0b0000#4 ∨ s.ph = 0b0111#4 ∧ c = 0b100#3)))

/-- A cycle with `rst = 1`, presented in front or behind an operation that waits, gives every register its
reset value, whatever else is presented and whatever the phase; no cell holds a value afterwards; no event is
emitted; ticks are then ignored and commands accepted (R156, R190; where the model keeps the earlier events is
log 8). -/
def Obligations.RstCycleResetsEveryRegister : Prop :=
  (∀ (s : State) (inp : Inputs) (rest : List Stimulus),
    s.stim = .cycle inp :: rest → inp.rst = true → s.RstTurn ∧ (nextTurn s).rest = rest) ∧
  ∀ s : State, s.RstTurn →
    ∃ t, step s = .next t ∧
      t.row = 0 ∧ t.frame = 0 ∧ t.run = false ∧ t.tickPend = false ∧ t.ph = 0b0000#4 ∧ t.col = 0 ∧
      t.pins = ⟨false, false, false, false, false, false, false, false⟩ ∧
      (∀ a, t.fb.read a = none ∧ t.acc.read a = none) ∧
      t.earlier ++ t.trace = s.earlier ++ s.trace ∧
      exec .tick t = .next t ∧ (∀ c, cmdReady t.ph c = true) ∧
      t.params = s.params ∧ t.stim = (nextTurn s).rest

/-! ## Reset -/

/-- The values after `rst`, for every value of the open parameters (R31). -/
def Obligations.ResetStateHasTheSpecsValues : Prop :=
  ∀ p : Params,
    (State.resetOf p).row = 0 ∧ (State.resetOf p).frame = 0 ∧ (State.resetOf p).run = false ∧
    (State.resetOf p).pins = ⟨false, false, false, false, false, false, false, false⟩ ∧
    (State.resetOf p).tickPend = false ∧ (State.resetOf p).ph = 0b0000#4 ∧ (State.resetOf p).col = 0 ∧
    (∀ a, (State.resetOf p).acc.read a = none) ∧ (∀ a, (State.resetOf p).fb.read a = none) ∧
    (State.resetOf p).trace = [] ∧ (State.resetOf p).params = p ∧
    ∃ q, State.reset = State.resetOf q

/-- The invariant holds after reset, for all parameters in their domains and for the chosen instance (R30, R31; the
instance's values are log 2's). -/
def Obligations.ResetSatisfiesTheInvariant : Prop :=
  (∀ p : Params, p.wf = true → (State.resetOf p).Inv) ∧ State.reset.Inv

/-! ## The visit -/

/-- The sum is exact, lies in 0 to 510, and its bit 8 is the carry out of an 8-bit adder (R103). -/
def Obligations.VisitSumIsExact : Prop :=
  ∀ a p : Byte,
    (ditherSum a p).toNat = a.toNat + p.toNat ∧ (ditherSum a p).toNat ≤ 510 ∧
    (carryOf (ditherSum a p) = true ↔ 256 ≤ a.toNat + p.toNat)

/-- The closed form: after `k` visits with the constant pixel byte `p`, the residual, the carry and the bit of
each visit and their counts (R109). -/
def Obligations.ResidualsFollowTheClosedForm : Prop :=
  ∀ (a0 p : Byte) (cell : Nat → Byte),
    cell 0 = a0 → (∀ k, cell (k + 1) = residualOf (ditherSum (cell k) p)) →
    ∀ n : Nat,
      (cell n).toNat = (a0.toNat + n * p.toNat) % 256 ∧
      (carryOf (ditherSum (cell n) p)).toNat =
        (a0.toNat + (n + 1) * p.toNat) / 256 - (a0.toNat + n * p.toNat) / 256 ∧
      emittedBit (ditherSum (cell n) p) = !carryOf (ditherSum (cell n) p) ∧
      (List.range n).countP (fun k => carryOf (ditherSum (cell k) p)) = (a0.toNat + n * p.toNat) / 256 ∧
      (List.range n).countP (fun k => emittedBit (ditherSum (cell k) p)) =
        n - (a0.toNat + n * p.toNat) / 256

/-- Any 256 consecutive visits with a constant pixel byte `p` hold exactly `p` carries, and bring the cell back
to its value (R110 item 5). -/
def Obligations.EveryPeriodOfVisitsHoldsItsIntensity : Prop :=
  ∀ (p : Byte) (cell : Nat → Byte),
    (∀ k, cell (k + 1) = residualOf (ditherSum (cell k) p)) →
    ∀ m : Nat,
      cell (m + 256) = cell m ∧
      (List.range' m 256).countP (fun k => carryOf (ditherSum (cell k) p)) = p.toNat ∧
      (List.range' m 256).countP (fun k => emittedBit (ditherSum (cell k) p)) = 256 - p.toNat

/-! ## The operation level -/

/-- NOP changes nothing and emits nothing, and neither do the reserved commands at the hardware level (R120,
R126; that the model runs a reserved command is its choice, log 11). -/
def Obligations.NopAndReservedCommandsChangeNothing : Prop :=
  ∀ s : State, exec .nop s = .next s ∧ exec .reservedCmd5 s = .next s ∧
    exec .reservedCmd6 s = .next s ∧ exec .reservedCmd7 s = .next s

/-- ENABLE sets `run`, asserts PANEL_EN with one event, and changes nothing else, whatever came before
(R122; before an INIT this is the model's choice, log 12). -/
def Obligations.EnableSetsRunAndAssertsThePanel : Prop :=
  ∀ s : State, exec .enable s = .next { s with
    run := true, pins := { s.pins with panelEn := true }, trace := s.trace ++ [.out .panelEn true] }

/-- INIT zeroes FB, seeds ACC byte by byte from its operand, zeroes `row` and `frame`, and changes nothing
else; every cell outside the space reads as before (R121; while `run = 1` this is the model's choice,
log 10). -/
def Obligations.InitZeroesTheFrameAndSeedsTheAccumulators : Prop :=
  ∀ s : State, 16 * s.params.cols ≤ s.inp.seedBuf.length →
    ∃ t, exec .init s = .next t ∧
      t = { s with row := 0, frame := 0, fb := t.fb, acc := t.acc } ∧
      (∀ a, t.fb.read a = if a < 16 * s.params.cols then some 0 else s.fb.read a) ∧
      (∀ a, t.acc.read a = if a < 16 * s.params.cols then s.inp.seedBuf[a]? else s.acc.read a)

/-- SETFRAME copies its operand into FB byte by byte, and changes nothing else (R124, R66). -/
def Obligations.SetframeReplacesTheFrame : Prop :=
  ∀ s : State, 16 * s.params.cols ≤ s.inp.srcBuf.length →
    ∃ t, exec .setframe s = .next t ∧ t = { s with fb := t.fb } ∧
      ∀ a, t.fb.read a = if a < 16 * s.params.cols then s.inp.srcBuf[a]? else s.fb.read a

/-- After SETFRAME the Pixel at row `r`, column `c` is the operand's, red byte first, row-major (R41, R61,
R66). -/
def Obligations.SetframePlacesPixelsRowMajor : Prop :=
  ∀ (s : State) (r c : Nat) (red green : Byte),
    16 * s.params.cols ≤ s.inp.srcBuf.length → r < 8 → c < s.params.cols →
    s.inp.srcBuf[2 * (r * s.params.cols + c)]? = some red →
    s.inp.srcBuf[2 * (r * s.params.cols + c) + 1]? = some green →
    ∃ t, exec .setframe s = .next t ∧ pixelAt s.params t.fb r c = some ⟨red, green⟩

/-- DISABLE stops the ticks, zeroes the framebuffer and performs the flush tick of row 1, whose every bit is 1
and which changes no accumulator; this is its end state and its events (R123). -/
def Obligations.DisableStopsTicksAndFlushes : Prop :=
  ∀ s : State, 1 ≤ s.params.cols →
    (∀ c ch, c < s.params.cols → ch < 2 → (s.acc.read (cellAddr s.params 1 c ch)).isSome) →
    ∃ t, exec .disable s = .next t ∧
      t = { s with
        run := false, tickPend := false, row := 1, fb := t.fb, acc := t.acc
        pins := ⟨false, true, false, false, true, true, true, false⟩
        trace := s.trace ++ [.out .panelEn false, .out .lat true, .out .a0 true, .out .a1 false,
            .out .a2 false, .out .lat false] ++
          (List.replicate s.params.cols
            [.out .sclk false, .out .dr true, .out .dg true, .out .sclk true]).flatten } ∧
      (∀ a, t.fb.read a = if a < 16 * s.params.cols then some 0 else s.fb.read a) ∧
      (∀ a, t.acc.read a = s.acc.read a)

/-- An operand shorter than 16 x COLS bytes is refused by name, at both levels and in a Hook's SETFRAME (R44,
U1; the refusal is the model's, log 13). -/
def Obligations.ShortOperandsAreRefused : Prop :=
  ∀ s : State,
    (s.inp.seedBuf.length < 16 * s.params.cols →
      exec .init s = .refused (.shortOperand .seedBuf) ∧
      (s.inp.cmdValid = true → s.inp.cmd = 0b001#3 →
        exec .phIdle s = .refused (.shortOperand .seedBuf))) ∧
    (s.inp.srcBuf.length < 16 * s.params.cols →
      exec .setframe s = .refused (.shortOperand .srcBuf) ∧
      (s.inp.cmdValid = true → s.inp.cmd = 0b100#3 →
        exec .phIdle s = .refused (.shortOperand .srcBuf) ∧
        exec .phSyncWait s = .refused (.shortOperand .srcBuf))) ∧
    (s.run = true → s.row = 6 → (∃ b ∈ s.inp.hook.frames, b.length < 16 * s.params.cols) →
      exec .tick s = .refused (.shortOperand .srcBuf))

/-- With `run = 0` a tick has no effect at all (R93). -/
def Obligations.TickWithoutRunHasNoEffect : Prop :=
  ∀ s : State, s.run = false → exec .tick s = .next s

/-- A render tick: the new row index, the header, the four events of every column in increasing order, the
residuals of that row's cells, the pins; nothing else changes (R80, R81, R87, R88, R90, R91, R100, R101, R102,
R107, R112). -/
def Obligations.RenderTickShiftsItsRow : Prop :=
  ∀ (s : State) (A P : Nat → Nat → Byte),
    s.run = true → s.row ≠ 6 → 1 ≤ s.params.cols →
    RowHolds s.params s.acc s.fb (s.row + 1).toNat A P →
    ∃ t, exec .tick s = .next t ∧
      t = { s with
        row := s.row + 1, acc := t.acc
        pins :=
          { lat := false, a0 := (s.row + 1).getLsbD 0, a1 := (s.row + 1).getLsbD 1
            a2 := (s.row + 1).getLsbD 2, sclk := true
            dr := dueBit (A (s.params.cols - 1) 0) (P (s.params.cols - 1) 0)
            dg := dueBit (A (s.params.cols - 1) 1) (P (s.params.cols - 1) 1)
            panelEn := s.pins.panelEn }
        trace := s.trace ++ headerEvents (s.row + 1) ++
          (List.range s.params.cols).flatMap (columnEvents A P) } ∧
      (∀ c ch, c < s.params.cols → ch < 2 →
        t.acc.read (cellAddr s.params (s.row + 1).toNat c ch) = some (dueResidual (A c ch) (P c ch))) ∧
      (∀ a, (∀ c ch, c < s.params.cols → ch < 2 → a ≠ cellAddr s.params (s.row + 1).toNat c ch) →
        t.acc.read a = s.acc.read a) ∧
      t.trace.length = s.trace.length + 5 + 4 * s.params.cols

/-- A sync tick whose Hook returns: the header of row 7, the call with the counter before its increment, the
Hook's SETFRAMEs, the increment; no accumulator cell, SCLK, DR or DG changes (R85, R86, R90, R91, R92). -/
def Obligations.SyncTickCallsTheHookAndCounts : Prop :=
  ∀ s : State, s.run = true → s.row = 6 → s.inp.hook.returns = true →
    (∀ b ∈ s.inp.hook.frames, 16 * s.params.cols ≤ b.length) →
    ∃ t, exec .tick s = .next t ∧
      t = { s with
        row := 7, frame := (s.frame + 1) % 2 ^ s.params.fcw, fb := t.fb
        pins := { s.pins with lat := false, a0 := true, a1 := true, a2 := true }
        trace := s.trace ++ headerEvents 7 ++ [.sync s.frame] } ∧
      ∀ a, t.fb.read a = match s.inp.hook.frames.getLast? with
        | none => s.fb.read a
        | some b => if a < 16 * s.params.cols then b[a]? else s.fb.read a

/-- A sync tick whose Hook never returns leaves the block in SYNC_WAIT with the counter not incremented, and the
frame that the Hook set last, if it set one, in FB (R91, R92, U5; that the operation level stops there is log 16). -/
def Obligations.UnansweredHookLeavesTheTickSuspended : Prop :=
  ∀ s : State, s.run = true → s.row = 6 → s.inp.hook.returns = false →
    (∀ b ∈ s.inp.hook.frames, 16 * s.params.cols ≤ b.length) →
    ∃ t, exec .tick s = .next t ∧
      t = { s with
        row := 7, fb := t.fb, ph := 0b0111#4
        pins := { s.pins with lat := false, a0 := true, a1 := true, a2 := true }
        trace := s.trace ++ headerEvents 7 ++ [.sync s.frame] } ∧
      ∀ a, t.fb.read a = match s.inp.hook.frames.getLast? with
        | none => s.fb.read a
        | some b => if a < 16 * s.params.cols then b[a]? else s.fb.read a

/-- A suspended block accepts no tick, however many are presented, and emits nothing further (R92; that they wait
is log 4). -/
def Obligations.SuspendedBlockTakesNoTick : Prop :=
  ∀ (n : Nat) (s : State), s.ph = 0b0111#4 → (∀ x ∈ s.stim, ∃ h, x = .tick h) →
    ∃ t, runSteps n s = .next t ∧ t.opView = s.opView ∧ t.ph = s.ph ∧ t.trace = s.trace ∧ t.stim = s.stim

/-- The framebuffer cells of row 7 are never read: a tick whose Hook issues no SETFRAME does the same, event for
event and cell for cell, with any other contents there (R49, R85). -/
def Obligations.RowSevenOfTheFrameIsNeverRead : Prop :=
  ∀ (s : State) (m : Memory), s.inp.hook.frames = [] →
    (∀ a, a < 14 * s.params.cols → s.fb.read a = m.read a) →
    exec .tick { s with fb := m } = andThen (exec .tick s) fun t => .next { t with fb := m }

/-! ## The cycle level -/

/-- LAT_HI, ADDR0, ADDR1, ADDR2 and CLK_LO: the codes, the one event of each, the successor, nothing else
(R142, R143, R144, R145, R149). -/
def Obligations.HeaderPhasesEmitTheirEvent : Prop :=
  decode ⟨.phase, 0b0001#4⟩ = .ok .phLatHi ∧ decode ⟨.phase, 0b0010#4⟩ = .ok .phAddr0 ∧
  decode ⟨.phase, 0b0011#4⟩ = .ok .phAddr1 ∧ decode ⟨.phase, 0b0100#4⟩ = .ok .phAddr2 ∧
  decode ⟨.phase, 0b1000#4⟩ = .ok .phClkLo ∧
  ∀ s : State,
    exec .phLatHi s = .next { s with
      ph := 0b0010#4, pins := { s.pins with lat := true }, trace := s.trace ++ [.out .lat true] } ∧
    exec .phAddr0 s = .next { s with
      ph := 0b0011#4, pins := { s.pins with a0 := s.row.getLsbD 0 }
      trace := s.trace ++ [.out .a0 (s.row.getLsbD 0)] } ∧
    exec .phAddr1 s = .next { s with
      ph := 0b0100#4, pins := { s.pins with a1 := s.row.getLsbD 1 }
      trace := s.trace ++ [.out .a1 (s.row.getLsbD 1)] } ∧
    exec .phAddr2 s = .next { s with
      ph := 0b0101#4, pins := { s.pins with a2 := s.row.getLsbD 2 }
      trace := s.trace ++ [.out .a2 (s.row.getLsbD 2)] } ∧
    exec .phClkLo s = .next { s with
      ph := 0b1001#4, pins := { s.pins with sclk := false }, trace := s.trace ++ [.out .sclk false] }

/-- LAT_LO: LAT falls, then the branch on the row index (R146). -/
def Obligations.LatLoBranchesOnTheSyncRow : Prop :=
  decode ⟨.phase, 0b0101#4⟩ = .ok .phLatLo ∧
  ∀ s : State,
    (s.row = 7 → exec .phLatLo s = .next { s with
      ph := 0b0110#4, pins := { s.pins with lat := false }, trace := s.trace ++ [.out .lat false] }) ∧
    (s.row ≠ 7 → exec .phLatLo s = .next { s with
      ph := 0b1000#4, col := 0, pins := { s.pins with lat := false }
      trace := s.trace ++ [.out .lat false] })

/-- SYNC_REQ calls the Hook with the frame counter: the event, and the outputs during that one cycle (R147). -/
def Obligations.SyncReqCallsTheHook : Prop :=
  decode ⟨.phase, 0b0110#4⟩ = .ok .phSyncReq ∧
  ∀ s : State,
    exec .phSyncReq s = .next { s with ph := 0b0111#4, trace := s.trace ++ [.sync s.frame] } ∧
    (s.ph = 0b0110#4 → (outputs s).syncReq = true ∧ (outputs s).frameIdx = s.frame) ∧
    ∀ t, exec .phSyncReq s = .next t → (outputs t).syncReq = false

/-- SYNC_WAIT: the Hook's SETFRAME, accepted or not, and its return, sampled or not, in all four combinations;
any other command waits; no event (R148, R125). -/
def Obligations.SyncWaitWaitsForTheHook : Prop :=
  ∀ s : State,
    (¬(s.inp.cmdValid = true ∧ s.inp.cmd = 0b100#3) →
      (s.inp.syncAck = false → exec .phSyncWait s = .next { s with ph := 0b0111#4 }) ∧
      (s.inp.syncAck = true → exec .phSyncWait s = .next { s with
        ph := 0b0000#4, frame := (s.frame + 1) % 2 ^ s.params.fcw })) ∧
    (s.inp.cmdValid = true → s.inp.cmd = 0b100#3 → 16 * s.params.cols ≤ s.inp.srcBuf.length →
      ∃ t, exec .phSyncWait s = .next t ∧
        t = { s with
          ph := if s.inp.syncAck = true then 0b0000#4 else 0b0111#4
          frame := if s.inp.syncAck = true then (s.frame + 1) % 2 ^ s.params.fcw else s.frame
          fb := t.fb } ∧
        ∀ a, t.fb.read a = if a < 16 * s.params.cols then s.inp.srcBuf[a]? else s.fb.read a)

/-- RED and GRN: the visit of the cell at the column counter, its bit on DR or DG, the residual written back,
every other cell as before (R150, R151, R102). -/
def Obligations.LanePhasesVisitTheirCell : Prop :=
  ∀ (s : State) (a p : Byte), s.col < s.params.cols →
    (s.acc.read (cellAddr s.params s.row.toNat s.col 0) = some a →
      s.fb.read (cellAddr s.params s.row.toNat s.col 0) = some p →
      ∃ t, exec .phRed s = .next t ∧
        t = { s with
          ph := 0b1010#4, acc := t.acc, pins := { s.pins with dr := dueBit a p }
          trace := s.trace ++ [.out .dr (dueBit a p)] } ∧
        ∀ b, t.acc.read b =
          if b = cellAddr s.params s.row.toNat s.col 0 then some (dueResidual a p) else s.acc.read b) ∧
    (s.acc.read (cellAddr s.params s.row.toNat s.col 1) = some a →
      s.fb.read (cellAddr s.params s.row.toNat s.col 1) = some p →
      ∃ t, exec .phGrn s = .next t ∧
        t = { s with
          ph := 0b1011#4, acc := t.acc, pins := { s.pins with dg := dueBit a p }
          trace := s.trace ++ [.out .dg (dueBit a p)] } ∧
        ∀ b, t.acc.read b =
          if b = cellAddr s.params s.row.toNat s.col 1 then some (dueResidual a p) else s.acc.read b)

/-- A visit of a cell that holds no value faults by name, in both lanes, and so does the first column of a
taken render tick (R55, D18; the fault is the model's, log 7). -/
def Obligations.UninitialisedVisitFaults : Prop :=
  ∀ s : State,
    (s.col < s.params.cols →
      (s.acc.read (cellAddr s.params s.row.toNat s.col 0) = none →
        exec .phRed s = .fault (.uninitialisedRead .acc (cellAddr s.params s.row.toNat s.col 0))) ∧
      (s.acc.read (cellAddr s.params s.row.toNat s.col 1) = none →
        exec .phGrn s = .fault (.uninitialisedRead .acc (cellAddr s.params s.row.toNat s.col 1))) ∧
      ((s.acc.read (cellAddr s.params s.row.toNat s.col 0)).isSome →
        s.fb.read (cellAddr s.params s.row.toNat s.col 0) = none →
        exec .phRed s = .fault (.uninitialisedRead .fb (cellAddr s.params s.row.toNat s.col 0))) ∧
      ((s.acc.read (cellAddr s.params s.row.toNat s.col 1)).isSome →
        s.fb.read (cellAddr s.params s.row.toNat s.col 1) = none →
        exec .phGrn s = .fault (.uninitialisedRead .fb (cellAddr s.params s.row.toNat s.col 1)))) ∧
    (s.run = true → s.row ≠ 6 → 1 ≤ s.params.cols →
      s.acc.read (cellAddr s.params (s.row + 1).toNat 0 0) = none →
      exec .tick s =
        .fault (.uninitialisedRead .acc (cellAddr s.params (s.row + 1).toNat 0 0)))

/-- CLK_HI: SCLK rises, then the next column or the end of the tick (R152). -/
def Obligations.ClkHiEndsTheColumn : Prop :=
  decode ⟨.phase, 0b1011#4⟩ = .ok .phClkHi ∧
  ∀ s : State, s.col < s.params.cols →
    (s.col = s.params.cols - 1 → exec .phClkHi s = .next { s with
      ph := 0b0000#4, pins := { s.pins with sclk := true }, trace := s.trace ++ [.out .sclk true] }) ∧
    (s.col ≠ s.params.cols - 1 → exec .phClkHi s = .next { s with
      ph := 0b1000#4, col := s.col + 1, pins := { s.pins with sclk := true }
      trace := s.trace ++ [.out .sclk true] })

/-- IDLE: an accepted command is performed at once, DISABLE by starting its flush tick; without a command a
pending tick of an enabled block starts; otherwise nothing (R141, R154, R175; the reserved commands are log
11's). -/
def Obligations.IdleAcceptsACommandOrStartsATick : Prop :=
  ∀ s : State,
    (s.inp.cmdValid = true →
      (s.inp.cmd = 0b001#3 → exec .phIdle s = exec .init s) ∧
      (s.inp.cmd = 0b010#3 → exec .phIdle s = exec .enable s) ∧
      (s.inp.cmd = 0b100#3 → exec .phIdle s = exec .setframe s) ∧
      (s.inp.cmd = 0b000#3 ∨ s.inp.cmd = 0b101#3 ∨ s.inp.cmd = 0b110#3 ∨ s.inp.cmd = 0b111#3 →
        exec .phIdle s = .next s) ∧
      (s.inp.cmd = 0b011#3 →
        ∃ t, exec .phIdle s = .next t ∧
          t = { s with
            run := false, row := 1, ph := 0b0001#4, fb := t.fb, pins := { s.pins with panelEn := false }
            trace := s.trace ++ [.out .panelEn false] } ∧
          ∀ a, t.fb.read a = if a < 16 * s.params.cols then some 0 else s.fb.read a)) ∧
    (s.inp.cmdValid = false → s.tickPend = true → s.run = true →
      exec .phIdle s = .next { s with row := s.row + 1, ph := 0b0001#4 }) ∧
    (s.inp.cmdValid = false → ¬(s.tickPend = true ∧ s.run = true) → exec .phIdle s = .next s)

/-- A reserved phase code, if ever forced: IDLE next, no event, no other change (R72). -/
def Obligations.ReservedPhaseGoesIdle : Prop :=
  ∀ (s : State) (x : BitVec 2), exec (.phReserved x) s = .next { s with ph := 0b0000#4 }

/-- The latch after a cycle, and when the lost-tick mark is set (R153, R23; that the mark stays set and is not
set by a discarding DISABLE is log 9). -/
def Obligations.PendingTickLatchUpdate : Prop :=
  ∀ (s t : State) (inp : Inputs) (rest : List Stimulus) (accept start : Prop),
    s.stim = .cycle inp :: rest → inp.rst = false → step s = .next t →
    (accept ↔ inp.cmdValid = true ∧ (s.ph = 0b0000#4 ∨ s.ph = 0b0111#4 ∧ inp.cmd = 0b100#3)) →
    (start ↔ s.ph = 0b0000#4 ∧ ¬accept ∧ s.tickPend = true ∧ s.run = true) →
    (t.tickPend = true ↔
      ¬(accept ∧ inp.cmd = 0b011#3) ∧
        (inp.tick = true ∧ s.run = true ∨ ¬start ∧ s.tickPend = true)) ∧
    (t.lost = true ↔ s.lost = true ∨
      inp.tick = true ∧ s.run = true ∧ s.tickPend = true ∧ ¬start ∧ ¬(accept ∧ inp.cmd = 0b011#3))

/-- The output ports other than the pins are these functions of the state and the command port, and the wire of
PANEL_EN carries the register through PANEL_EN_ACTIVE (R25, R19, R155). -/
def Obligations.OutputPortsFollowTheState : Prop :=
  ∀ s : State,
    ((outputs s).syncReq = true ↔ s.ph = 0b0110#4) ∧ (outputs s).frameIdx = s.frame ∧
    ((outputs s).cmdReady = true ↔ s.ph = 0b0000#4 ∨ s.ph = 0b0111#4 ∧ s.inp.cmd = 0b100#3) ∧
    ((outputs s).busy = true ↔ s.ph ≠ 0b0000#4) ∧
    (s.pins.panelEn = true → (outputs s).panelEn = s.params.panelEnActive) ∧
    (s.pins.panelEn = false → (outputs s).panelEn = !s.params.panelEnActive) ∧
    (outputs s).lat = s.pins.lat ∧ (outputs s).a0 = s.pins.a0 ∧ (outputs s).a1 = s.pins.a1 ∧
    (outputs s).a2 = s.pins.a2 ∧ (outputs s).sclk = s.pins.sclk ∧ (outputs s).dr = s.pins.dr ∧
    (outputs s).dg = s.pins.dg

/-! ## The whole machine -/

/-- Every step keeps the invariant (R30, R153, R159). -/
def Obligations.EveryStepKeepsTheInvariant : Prop :=
  ∀ s t : State, s.Inv → step s = .next t → t.Inv

/-- An initialised block with operands of the ports' size never stops: every step completes, and unless it was
`rst` the block stays initialised (R170, R55). -/
def Obligations.InitialisedBlockNeverStops : Prop :=
  ∀ s : State, s.Inv → s.Initialised → s.StimWf →
    ∃ t, step s = .next t ∧ t.StimWf ∧ (s.RstTurn ∨ t.Initialised)

/-- No operation un-writes a cell: but for `rst`, a cell that holds a value keeps holding one (R55). -/
def Obligations.CellsStayDefined : Prop :=
  ∀ s t : State, ¬s.RstTurn → step s = .next t →
    ∀ a, ((s.fb.read a).isSome → (t.fb.read a).isSome) ∧ ((s.acc.read a).isSome → (t.acc.read a).isSome)

/-- The write-rights table: which instructions may change each piece of state, and that none changes the
parameters, the inputs, the stimuli or the model's marks (R33). -/
def Obligations.OnlyTheOwnersWriteEachRegister : Prop :=
  ∀ (i : Instr) (s t : State), exec i s = .next t →
    (t.row ≠ s.row → i ∈ [.tick, .init, .disable, .phIdle]) ∧
    (t.frame ≠ s.frame → i ∈ [.tick, .init, .phSyncWait, .phIdle]) ∧
    (t.run ≠ s.run ∨ t.pins.panelEn ≠ s.pins.panelEn → i ∈ [.enable, .disable, .phIdle]) ∧
    (t.acc ≠ s.acc → i ∈ [.tick, .init, .disable, .phRed, .phGrn, .phIdle]) ∧
    (t.fb ≠ s.fb → i ∈ [.tick, .init, .disable, .setframe, .phIdle, .phSyncWait]) ∧
    (t.tickPend ≠ s.tickPend → i = .disable) ∧
    (t.col ≠ s.col → i ∈ [.phLatLo, .phClkHi]) ∧
    ((∃ p, p ≠ .panelEn ∧ t.pins.get p ≠ s.pins.get p) →
      i ∈ [.tick, .disable, .phLatHi, .phAddr0, .phAddr1, .phAddr2, .phLatLo, .phClkLo, .phRed, .phGrn,
        .phClkHi]) ∧
    t.params = s.params ∧ t.inp = s.inp ∧ t.stim = s.stim ∧ t.lost = s.lost ∧ t.earlier = s.earlier

/-- Every pin register holds the last level written to it: a step adds events to the trace, at most one in a
clock cycle, and each pin is what those events say (R14, R51, R140). -/
def Obligations.PinsFollowTheTrace : Prop :=
  ∀ s t : State, ¬s.RstTurn → step s = .next t →
    ∃ es, t.trace = s.trace ++ es ∧ (∀ p, t.pins.get p = pinAfter p (s.pins.get p) es) ∧
      ((nextTurn s).clocked = true → es.length ≤ 1)

/-- The row sequence and the frame counter over any number of ticks from any row: the cursor counts modulo 8, and
the Hook is called on each tick that reaches row 7, with successive frame indices modulo 2^FCW (R86, R89,
R94). -/
def Obligations.TicksCountRowsAndFrames : Prop :=
  ∀ (n : Nat) (s : State) (h : HookRun) (rest : List Stimulus),
    s.Inv → s.Initialised → s.ph = 0b0000#4 → s.run = true →
    s.stim = ticks n h ++ rest → h.returns = true → h.wf s.params = true →
    ∃ t es, runSteps n s = .next t ∧ t.stim = rest ∧ t.trace = s.trace ++ es ∧
      t.row = s.row + BitVec.ofNat 3 n ∧
      t.frame = (s.frame + ((s.row.toNat + n + 1) / 8 - (s.row.toNat + 1) / 8)) % 2 ^ s.params.fcw ∧
      syncArgs es = (List.range ((s.row.toNat + n + 1) / 8 - (s.row.toNat + 1) / 8)).map
        fun j => (s.frame + j) % 2 ^ s.params.fcw

/-- `k` sweeps with no other write of the framebuffer visit every cell of rows 0 to 6 exactly `k` times, leave row
7's cells alone, and bring the cursor back; each residual is the closed form's (R54, R89, R105, R109). -/
def Obligations.SweepsVisitEveryRenderedCell : Prop :=
  ∀ (k : Nat) (s : State) (rest : List Stimulus),
    s.Inv → s.Initialised → s.ph = 0b0000#4 → s.run = true →
    s.stim = ticks (8 * k) HookRun.idle ++ rest →
    ∃ t, runSteps (8 * k) s = .next t ∧ t.stim = rest ∧ t.row = s.row ∧ t.fb = s.fb ∧
      t.frame = (s.frame + k) % 2 ^ s.params.fcw ∧
      t.trace.length = s.trace.length + k * (7 * (5 + 4 * s.params.cols) + 6) ∧
      (∀ r c ch a p, r < 7 → c < s.params.cols → ch < 2 →
        s.acc.read (cellAddr s.params r c ch) = some a →
        s.fb.read (cellAddr s.params r c ch) = some p →
        ∃ b, t.acc.read (cellAddr s.params r c ch) = some b ∧
          b.toNat = (a.toNat + k * p.toNat) % 256) ∧
      (∀ c ch, c < s.params.cols → ch < 2 →
        t.acc.read (cellAddr s.params 7 c ch) = s.acc.read (cellAddr s.params 7 c ch))

/-- The cycles of a pending render tick do what the operation TICK does: the same events in the same order and the
same operation-level state, whatever strobes arrive and whatever commands wait meanwhile (R157, R158). -/
def Obligations.RenderCyclesRefineTick : Prop :=
  ∀ (s : State) (ins : List Inputs) (rest : List Stimulus),
    s.Inv → s.Initialised → s.ph = 0b0000#4 → s.run = true → s.tickPend = true → s.row ≠ 6 →
    ins.length = 6 + 4 * s.params.cols → (∀ x ∈ ins, x.rst = false) →
    (∀ x ∈ ins.head?, x.cmdValid = false) → s.stim = ins.map .cycle ++ rest →
    ∃ t u, runSteps (6 + 4 * s.params.cols) s = .next t ∧ exec .tick s = .next u ∧
      t.opView = u.opView ∧ t.trace = u.trace ∧ t.ph = 0b0000#4 ∧ t.stim = rest

/-- The cycles of a pending sync tick do what the operation TICK does with the Hook that issues the SETFRAMEs
accepted in SYNC_WAIT and returns: any other command presented there waits (R157, R148). -/
def Obligations.SyncCyclesRefineTick : Prop :=
  ∀ (s : State) (pre waits : List Inputs) (last : Inputs) (rest : List Stimulus),
    s.Inv → s.ph = 0b0000#4 → s.run = true → s.tickPend = true → s.row = 6 →
    pre.length = 7 → (∀ x ∈ pre, x.rst = false) → (∀ x ∈ pre.head?, x.cmdValid = false) →
    (∀ x ∈ waits, x.rst = false ∧ x.syncAck = false) → last.rst = false → last.syncAck = true →
    (∀ x ∈ waits ++ [last], x.cmdValid = true → 16 * s.params.cols ≤ x.srcBuf.length) →
    s.stim = (pre ++ waits ++ [last]).map .cycle ++ rest →
    ∃ t u, runSteps (8 + waits.length) s = .next t ∧
      exec .tick { s with
        inp := { Inputs.quiet with
          hook :=
            { returns := true
              frames := (waits ++ [last]).filterMap fun x =>
                if x.cmdValid = true ∧ x.cmd = 0b100#3 then some x.srcBuf else none } } } = .next u ∧
      t.opView = u.opView ∧ t.trace = u.trace ∧ t.ph = 0b0000#4 ∧ t.stim = rest

/-- The cycles of an accepted DISABLE do what the operation DISABLE does, and no strobe meanwhile leaves a tick
pending (R157, R123, R154). -/
def Obligations.DisableCyclesRefineDisable : Prop :=
  ∀ (s : State) (first : Inputs) (ins : List Inputs) (rest : List Stimulus),
    s.Inv → s.Initialised → s.ph = 0b0000#4 →
    first.rst = false → first.cmdValid = true → first.cmd = 0b011#3 →
    ins.length = 5 + 4 * s.params.cols → (∀ x ∈ ins, x.rst = false) →
    s.stim = (first :: ins).map .cycle ++ rest →
    ∃ t u, runSteps (6 + 4 * s.params.cols) s = .next t ∧ exec .disable s = .next u ∧
      t.opView = u.opView ∧ t.trace = u.trace ∧ t.ph = 0b0000#4 ∧ t.tickPend = false ∧ t.stim = rest

/-- A render tick keeps the sequencer busy for exactly `5 + 4*COLS` cycles after the one that starts it
(R158). -/
def Obligations.RenderTickIsBusyForItsCycles : Prop :=
  ∀ (s : State) (ins : List Inputs) (rest : List Stimulus) (k : Nat),
    s.Inv → s.Initialised → s.ph = 0b0000#4 → s.run = true → s.tickPend = true → s.row ≠ 6 →
    ins.length = 6 + 4 * s.params.cols → (∀ x ∈ ins, x.rst = false) →
    (∀ x ∈ ins.head?, x.cmdValid = false) → s.stim = ins.map .cycle ++ rest →
    k < 6 + 4 * s.params.cols →
    ∃ t, runSteps (k + 1) s = .next t ∧ ((outputs t).busy = true ↔ k + 1 < 6 + 4 * s.params.cols)
end

