-- ==== Sys2Proof/Laws/State.lean ====
section
/-! SUPPORT. One lemma per field and per named update of the state (Machine/Ops.lean), each true by rfl, so
that no later proof unfolds a record update. -/

namespace Sys2Proof.Machine

/-! ## storeAcc -/

@[simp] theorem storeAcc_params (a : Nat) (v : Byte) (s : State) : (storeAcc a v s).params = s.params := rfl
@[simp] theorem storeAcc_row (a : Nat) (v : Byte) (s : State) : (storeAcc a v s).row = s.row := rfl
@[simp] theorem storeAcc_frame (a : Nat) (v : Byte) (s : State) : (storeAcc a v s).frame = s.frame := rfl
@[simp] theorem storeAcc_run (a : Nat) (v : Byte) (s : State) : (storeAcc a v s).run = s.run := rfl
@[simp] theorem storeAcc_pins (a : Nat) (v : Byte) (s : State) : (storeAcc a v s).pins = s.pins := rfl
@[simp] theorem storeAcc_acc (a : Nat) (v : Byte) (s : State) : (storeAcc a v s).acc = s.acc.write a v := rfl
@[simp] theorem storeAcc_fb (a : Nat) (v : Byte) (s : State) : (storeAcc a v s).fb = s.fb := rfl
@[simp] theorem storeAcc_tickPend (a : Nat) (v : Byte) (s : State) : (storeAcc a v s).tickPend = s.tickPend := rfl
@[simp] theorem storeAcc_ph (a : Nat) (v : Byte) (s : State) : (storeAcc a v s).ph = s.ph := rfl
@[simp] theorem storeAcc_col (a : Nat) (v : Byte) (s : State) : (storeAcc a v s).col = s.col := rfl
@[simp] theorem storeAcc_trace (a : Nat) (v : Byte) (s : State) : (storeAcc a v s).trace = s.trace := rfl
@[simp] theorem storeAcc_earlier (a : Nat) (v : Byte) (s : State) : (storeAcc a v s).earlier = s.earlier := rfl
@[simp] theorem storeAcc_lost (a : Nat) (v : Byte) (s : State) : (storeAcc a v s).lost = s.lost := rfl
@[simp] theorem storeAcc_inp (a : Nat) (v : Byte) (s : State) : (storeAcc a v s).inp = s.inp := rfl
@[simp] theorem storeAcc_stim (a : Nat) (v : Byte) (s : State) : (storeAcc a v s).stim = s.stim := rfl
@[simp] theorem storeAcc_cells (a : Nat) (v : Byte) (s : State) : (storeAcc a v s).cells = s.cells := rfl

/-! ## fillFb -/

@[simp] theorem fillFb_params (bs : List Byte) (s : State) : (fillFb bs s).params = s.params := rfl
@[simp] theorem fillFb_row (bs : List Byte) (s : State) : (fillFb bs s).row = s.row := rfl
@[simp] theorem fillFb_frame (bs : List Byte) (s : State) : (fillFb bs s).frame = s.frame := rfl
@[simp] theorem fillFb_run (bs : List Byte) (s : State) : (fillFb bs s).run = s.run := rfl
@[simp] theorem fillFb_pins (bs : List Byte) (s : State) : (fillFb bs s).pins = s.pins := rfl
@[simp] theorem fillFb_acc (bs : List Byte) (s : State) : (fillFb bs s).acc = s.acc := rfl
@[simp] theorem fillFb_fb (bs : List Byte) (s : State) : (fillFb bs s).fb = s.fb.writeRun 0 bs := rfl
@[simp] theorem fillFb_tickPend (bs : List Byte) (s : State) : (fillFb bs s).tickPend = s.tickPend := rfl
@[simp] theorem fillFb_ph (bs : List Byte) (s : State) : (fillFb bs s).ph = s.ph := rfl
@[simp] theorem fillFb_col (bs : List Byte) (s : State) : (fillFb bs s).col = s.col := rfl
@[simp] theorem fillFb_trace (bs : List Byte) (s : State) : (fillFb bs s).trace = s.trace := rfl
@[simp] theorem fillFb_earlier (bs : List Byte) (s : State) : (fillFb bs s).earlier = s.earlier := rfl
@[simp] theorem fillFb_lost (bs : List Byte) (s : State) : (fillFb bs s).lost = s.lost := rfl
@[simp] theorem fillFb_inp (bs : List Byte) (s : State) : (fillFb bs s).inp = s.inp := rfl
@[simp] theorem fillFb_stim (bs : List Byte) (s : State) : (fillFb bs s).stim = s.stim := rfl
@[simp] theorem fillFb_cells (bs : List Byte) (s : State) : (fillFb bs s).cells = s.cells := rfl

/-! ## fillAcc -/

@[simp] theorem fillAcc_params (bs : List Byte) (s : State) : (fillAcc bs s).params = s.params := rfl
@[simp] theorem fillAcc_row (bs : List Byte) (s : State) : (fillAcc bs s).row = s.row := rfl
@[simp] theorem fillAcc_frame (bs : List Byte) (s : State) : (fillAcc bs s).frame = s.frame := rfl
@[simp] theorem fillAcc_run (bs : List Byte) (s : State) : (fillAcc bs s).run = s.run := rfl
@[simp] theorem fillAcc_pins (bs : List Byte) (s : State) : (fillAcc bs s).pins = s.pins := rfl
@[simp] theorem fillAcc_acc (bs : List Byte) (s : State) : (fillAcc bs s).acc = s.acc.writeRun 0 bs := rfl
@[simp] theorem fillAcc_fb (bs : List Byte) (s : State) : (fillAcc bs s).fb = s.fb := rfl
@[simp] theorem fillAcc_tickPend (bs : List Byte) (s : State) : (fillAcc bs s).tickPend = s.tickPend := rfl
@[simp] theorem fillAcc_ph (bs : List Byte) (s : State) : (fillAcc bs s).ph = s.ph := rfl
@[simp] theorem fillAcc_col (bs : List Byte) (s : State) : (fillAcc bs s).col = s.col := rfl
@[simp] theorem fillAcc_trace (bs : List Byte) (s : State) : (fillAcc bs s).trace = s.trace := rfl
@[simp] theorem fillAcc_earlier (bs : List Byte) (s : State) : (fillAcc bs s).earlier = s.earlier := rfl
@[simp] theorem fillAcc_lost (bs : List Byte) (s : State) : (fillAcc bs s).lost = s.lost := rfl
@[simp] theorem fillAcc_inp (bs : List Byte) (s : State) : (fillAcc bs s).inp = s.inp := rfl
@[simp] theorem fillAcc_stim (bs : List Byte) (s : State) : (fillAcc bs s).stim = s.stim := rfl
@[simp] theorem fillAcc_cells (bs : List Byte) (s : State) : (fillAcc bs s).cells = s.cells := rfl

/-! ## zeroFb -/

@[simp] theorem zeroFb_params (s : State) : (zeroFb s).params = s.params := rfl
@[simp] theorem zeroFb_row (s : State) : (zeroFb s).row = s.row := rfl
@[simp] theorem zeroFb_frame (s : State) : (zeroFb s).frame = s.frame := rfl
@[simp] theorem zeroFb_run (s : State) : (zeroFb s).run = s.run := rfl
@[simp] theorem zeroFb_pins (s : State) : (zeroFb s).pins = s.pins := rfl
@[simp] theorem zeroFb_acc (s : State) : (zeroFb s).acc = s.acc := rfl
@[simp] theorem zeroFb_fb (s : State) : (zeroFb s).fb = s.fb.writeRun 0 (List.replicate s.cells 0) := rfl
@[simp] theorem zeroFb_tickPend (s : State) : (zeroFb s).tickPend = s.tickPend := rfl
@[simp] theorem zeroFb_ph (s : State) : (zeroFb s).ph = s.ph := rfl
@[simp] theorem zeroFb_col (s : State) : (zeroFb s).col = s.col := rfl
@[simp] theorem zeroFb_trace (s : State) : (zeroFb s).trace = s.trace := rfl
@[simp] theorem zeroFb_earlier (s : State) : (zeroFb s).earlier = s.earlier := rfl
@[simp] theorem zeroFb_lost (s : State) : (zeroFb s).lost = s.lost := rfl
@[simp] theorem zeroFb_inp (s : State) : (zeroFb s).inp = s.inp := rfl
@[simp] theorem zeroFb_stim (s : State) : (zeroFb s).stim = s.stim := rfl
@[simp] theorem zeroFb_cells (s : State) : (zeroFb s).cells = s.cells := rfl

/-! ## emit -/

@[simp] theorem emit_params (p : Pin) (v : Level) (s : State) : (emit p v s).params = s.params := rfl
@[simp] theorem emit_row (p : Pin) (v : Level) (s : State) : (emit p v s).row = s.row := rfl
@[simp] theorem emit_frame (p : Pin) (v : Level) (s : State) : (emit p v s).frame = s.frame := rfl
@[simp] theorem emit_run (p : Pin) (v : Level) (s : State) : (emit p v s).run = s.run := rfl
@[simp] theorem emit_pins (p : Pin) (v : Level) (s : State) : (emit p v s).pins = s.pins.set p v := rfl
@[simp] theorem emit_acc (p : Pin) (v : Level) (s : State) : (emit p v s).acc = s.acc := rfl
@[simp] theorem emit_fb (p : Pin) (v : Level) (s : State) : (emit p v s).fb = s.fb := rfl
@[simp] theorem emit_tickPend (p : Pin) (v : Level) (s : State) : (emit p v s).tickPend = s.tickPend := rfl
@[simp] theorem emit_ph (p : Pin) (v : Level) (s : State) : (emit p v s).ph = s.ph := rfl
@[simp] theorem emit_col (p : Pin) (v : Level) (s : State) : (emit p v s).col = s.col := rfl
@[simp] theorem emit_trace (p : Pin) (v : Level) (s : State) : (emit p v s).trace = s.trace ++ [.out p v] := rfl
@[simp] theorem emit_earlier (p : Pin) (v : Level) (s : State) : (emit p v s).earlier = s.earlier := rfl
@[simp] theorem emit_lost (p : Pin) (v : Level) (s : State) : (emit p v s).lost = s.lost := rfl
@[simp] theorem emit_inp (p : Pin) (v : Level) (s : State) : (emit p v s).inp = s.inp := rfl
@[simp] theorem emit_stim (p : Pin) (v : Level) (s : State) : (emit p v s).stim = s.stim := rfl
@[simp] theorem emit_cells (p : Pin) (v : Level) (s : State) : (emit p v s).cells = s.cells := rfl

/-! ## emitSync -/

@[simp] theorem emitSync_params (s : State) : (emitSync s).params = s.params := rfl
@[simp] theorem emitSync_row (s : State) : (emitSync s).row = s.row := rfl
@[simp] theorem emitSync_frame (s : State) : (emitSync s).frame = s.frame := rfl
@[simp] theorem emitSync_run (s : State) : (emitSync s).run = s.run := rfl
@[simp] theorem emitSync_pins (s : State) : (emitSync s).pins = s.pins := rfl
@[simp] theorem emitSync_acc (s : State) : (emitSync s).acc = s.acc := rfl
@[simp] theorem emitSync_fb (s : State) : (emitSync s).fb = s.fb := rfl
@[simp] theorem emitSync_tickPend (s : State) : (emitSync s).tickPend = s.tickPend := rfl
@[simp] theorem emitSync_ph (s : State) : (emitSync s).ph = s.ph := rfl
@[simp] theorem emitSync_col (s : State) : (emitSync s).col = s.col := rfl
@[simp] theorem emitSync_trace (s : State) : (emitSync s).trace = s.trace ++ [.sync s.frame] := rfl
@[simp] theorem emitSync_earlier (s : State) : (emitSync s).earlier = s.earlier := rfl
@[simp] theorem emitSync_lost (s : State) : (emitSync s).lost = s.lost := rfl
@[simp] theorem emitSync_inp (s : State) : (emitSync s).inp = s.inp := rfl
@[simp] theorem emitSync_stim (s : State) : (emitSync s).stim = s.stim := rfl
@[simp] theorem emitSync_cells (s : State) : (emitSync s).cells = s.cells := rfl

/-! ## advanceRow -/

@[simp] theorem advanceRow_params (s : State) : (advanceRow s).params = s.params := rfl
@[simp] theorem advanceRow_row (s : State) : (advanceRow s).row = s.row + 1 := rfl
@[simp] theorem advanceRow_frame (s : State) : (advanceRow s).frame = s.frame := rfl
@[simp] theorem advanceRow_run (s : State) : (advanceRow s).run = s.run := rfl
@[simp] theorem advanceRow_pins (s : State) : (advanceRow s).pins = s.pins := rfl
@[simp] theorem advanceRow_acc (s : State) : (advanceRow s).acc = s.acc := rfl
@[simp] theorem advanceRow_fb (s : State) : (advanceRow s).fb = s.fb := rfl
@[simp] theorem advanceRow_tickPend (s : State) : (advanceRow s).tickPend = s.tickPend := rfl
@[simp] theorem advanceRow_ph (s : State) : (advanceRow s).ph = s.ph := rfl
@[simp] theorem advanceRow_col (s : State) : (advanceRow s).col = s.col := rfl
@[simp] theorem advanceRow_trace (s : State) : (advanceRow s).trace = s.trace := rfl
@[simp] theorem advanceRow_earlier (s : State) : (advanceRow s).earlier = s.earlier := rfl
@[simp] theorem advanceRow_lost (s : State) : (advanceRow s).lost = s.lost := rfl
@[simp] theorem advanceRow_inp (s : State) : (advanceRow s).inp = s.inp := rfl
@[simp] theorem advanceRow_stim (s : State) : (advanceRow s).stim = s.stim := rfl
@[simp] theorem advanceRow_cells (s : State) : (advanceRow s).cells = s.cells := rfl

/-! ## setRow -/

@[simp] theorem setRow_params (v : Row) (s : State) : (setRow v s).params = s.params := rfl
@[simp] theorem setRow_row (v : Row) (s : State) : (setRow v s).row = v := rfl
@[simp] theorem setRow_frame (v : Row) (s : State) : (setRow v s).frame = s.frame := rfl
@[simp] theorem setRow_run (v : Row) (s : State) : (setRow v s).run = s.run := rfl
@[simp] theorem setRow_pins (v : Row) (s : State) : (setRow v s).pins = s.pins := rfl
@[simp] theorem setRow_acc (v : Row) (s : State) : (setRow v s).acc = s.acc := rfl
@[simp] theorem setRow_fb (v : Row) (s : State) : (setRow v s).fb = s.fb := rfl
@[simp] theorem setRow_tickPend (v : Row) (s : State) : (setRow v s).tickPend = s.tickPend := rfl
@[simp] theorem setRow_ph (v : Row) (s : State) : (setRow v s).ph = s.ph := rfl
@[simp] theorem setRow_col (v : Row) (s : State) : (setRow v s).col = s.col := rfl
@[simp] theorem setRow_trace (v : Row) (s : State) : (setRow v s).trace = s.trace := rfl
@[simp] theorem setRow_earlier (v : Row) (s : State) : (setRow v s).earlier = s.earlier := rfl
@[simp] theorem setRow_lost (v : Row) (s : State) : (setRow v s).lost = s.lost := rfl
@[simp] theorem setRow_inp (v : Row) (s : State) : (setRow v s).inp = s.inp := rfl
@[simp] theorem setRow_stim (v : Row) (s : State) : (setRow v s).stim = s.stim := rfl
@[simp] theorem setRow_cells (v : Row) (s : State) : (setRow v s).cells = s.cells := rfl

/-! ## bumpFrame -/

@[simp] theorem bumpFrame_params (s : State) : (bumpFrame s).params = s.params := rfl
@[simp] theorem bumpFrame_row (s : State) : (bumpFrame s).row = s.row := rfl
@[simp] theorem bumpFrame_frame (s : State) : (bumpFrame s).frame = (s.frame + 1) % 2 ^ s.params.fcw := rfl
@[simp] theorem bumpFrame_run (s : State) : (bumpFrame s).run = s.run := rfl
@[simp] theorem bumpFrame_pins (s : State) : (bumpFrame s).pins = s.pins := rfl
@[simp] theorem bumpFrame_acc (s : State) : (bumpFrame s).acc = s.acc := rfl
@[simp] theorem bumpFrame_fb (s : State) : (bumpFrame s).fb = s.fb := rfl
@[simp] theorem bumpFrame_tickPend (s : State) : (bumpFrame s).tickPend = s.tickPend := rfl
@[simp] theorem bumpFrame_ph (s : State) : (bumpFrame s).ph = s.ph := rfl
@[simp] theorem bumpFrame_col (s : State) : (bumpFrame s).col = s.col := rfl
@[simp] theorem bumpFrame_trace (s : State) : (bumpFrame s).trace = s.trace := rfl
@[simp] theorem bumpFrame_earlier (s : State) : (bumpFrame s).earlier = s.earlier := rfl
@[simp] theorem bumpFrame_lost (s : State) : (bumpFrame s).lost = s.lost := rfl
@[simp] theorem bumpFrame_inp (s : State) : (bumpFrame s).inp = s.inp := rfl
@[simp] theorem bumpFrame_stim (s : State) : (bumpFrame s).stim = s.stim := rfl
@[simp] theorem bumpFrame_cells (s : State) : (bumpFrame s).cells = s.cells := rfl

/-! ## clearFrame -/

@[simp] theorem clearFrame_params (s : State) : (clearFrame s).params = s.params := rfl
@[simp] theorem clearFrame_row (s : State) : (clearFrame s).row = s.row := rfl
@[simp] theorem clearFrame_frame (s : State) : (clearFrame s).frame = 0 := rfl
@[simp] theorem clearFrame_run (s : State) : (clearFrame s).run = s.run := rfl
@[simp] theorem clearFrame_pins (s : State) : (clearFrame s).pins = s.pins := rfl
@[simp] theorem clearFrame_acc (s : State) : (clearFrame s).acc = s.acc := rfl
@[simp] theorem clearFrame_fb (s : State) : (clearFrame s).fb = s.fb := rfl
@[simp] theorem clearFrame_tickPend (s : State) : (clearFrame s).tickPend = s.tickPend := rfl
@[simp] theorem clearFrame_ph (s : State) : (clearFrame s).ph = s.ph := rfl
@[simp] theorem clearFrame_col (s : State) : (clearFrame s).col = s.col := rfl
@[simp] theorem clearFrame_trace (s : State) : (clearFrame s).trace = s.trace := rfl
@[simp] theorem clearFrame_earlier (s : State) : (clearFrame s).earlier = s.earlier := rfl
@[simp] theorem clearFrame_lost (s : State) : (clearFrame s).lost = s.lost := rfl
@[simp] theorem clearFrame_inp (s : State) : (clearFrame s).inp = s.inp := rfl
@[simp] theorem clearFrame_stim (s : State) : (clearFrame s).stim = s.stim := rfl
@[simp] theorem clearFrame_cells (s : State) : (clearFrame s).cells = s.cells := rfl

/-! ## setRun -/

@[simp] theorem setRun_params (v : Level) (s : State) : (setRun v s).params = s.params := rfl
@[simp] theorem setRun_row (v : Level) (s : State) : (setRun v s).row = s.row := rfl
@[simp] theorem setRun_frame (v : Level) (s : State) : (setRun v s).frame = s.frame := rfl
@[simp] theorem setRun_run (v : Level) (s : State) : (setRun v s).run = v := rfl
@[simp] theorem setRun_pins (v : Level) (s : State) : (setRun v s).pins = s.pins := rfl
@[simp] theorem setRun_acc (v : Level) (s : State) : (setRun v s).acc = s.acc := rfl
@[simp] theorem setRun_fb (v : Level) (s : State) : (setRun v s).fb = s.fb := rfl
@[simp] theorem setRun_tickPend (v : Level) (s : State) : (setRun v s).tickPend = s.tickPend := rfl
@[simp] theorem setRun_ph (v : Level) (s : State) : (setRun v s).ph = s.ph := rfl
@[simp] theorem setRun_col (v : Level) (s : State) : (setRun v s).col = s.col := rfl
@[simp] theorem setRun_trace (v : Level) (s : State) : (setRun v s).trace = s.trace := rfl
@[simp] theorem setRun_earlier (v : Level) (s : State) : (setRun v s).earlier = s.earlier := rfl
@[simp] theorem setRun_lost (v : Level) (s : State) : (setRun v s).lost = s.lost := rfl
@[simp] theorem setRun_inp (v : Level) (s : State) : (setRun v s).inp = s.inp := rfl
@[simp] theorem setRun_stim (v : Level) (s : State) : (setRun v s).stim = s.stim := rfl
@[simp] theorem setRun_cells (v : Level) (s : State) : (setRun v s).cells = s.cells := rfl

/-! ## setPend -/

@[simp] theorem setPend_params (v : Level) (s : State) : (setPend v s).params = s.params := rfl
@[simp] theorem setPend_row (v : Level) (s : State) : (setPend v s).row = s.row := rfl
@[simp] theorem setPend_frame (v : Level) (s : State) : (setPend v s).frame = s.frame := rfl
@[simp] theorem setPend_run (v : Level) (s : State) : (setPend v s).run = s.run := rfl
@[simp] theorem setPend_pins (v : Level) (s : State) : (setPend v s).pins = s.pins := rfl
@[simp] theorem setPend_acc (v : Level) (s : State) : (setPend v s).acc = s.acc := rfl
@[simp] theorem setPend_fb (v : Level) (s : State) : (setPend v s).fb = s.fb := rfl
@[simp] theorem setPend_tickPend (v : Level) (s : State) : (setPend v s).tickPend = v := rfl
@[simp] theorem setPend_ph (v : Level) (s : State) : (setPend v s).ph = s.ph := rfl
@[simp] theorem setPend_col (v : Level) (s : State) : (setPend v s).col = s.col := rfl
@[simp] theorem setPend_trace (v : Level) (s : State) : (setPend v s).trace = s.trace := rfl
@[simp] theorem setPend_earlier (v : Level) (s : State) : (setPend v s).earlier = s.earlier := rfl
@[simp] theorem setPend_lost (v : Level) (s : State) : (setPend v s).lost = s.lost := rfl
@[simp] theorem setPend_inp (v : Level) (s : State) : (setPend v s).inp = s.inp := rfl
@[simp] theorem setPend_stim (v : Level) (s : State) : (setPend v s).stim = s.stim := rfl
@[simp] theorem setPend_cells (v : Level) (s : State) : (setPend v s).cells = s.cells := rfl

/-! ## setPh -/

@[simp] theorem setPh_params (p : BitVec 4) (s : State) : (setPh p s).params = s.params := rfl
@[simp] theorem setPh_row (p : BitVec 4) (s : State) : (setPh p s).row = s.row := rfl
@[simp] theorem setPh_frame (p : BitVec 4) (s : State) : (setPh p s).frame = s.frame := rfl
@[simp] theorem setPh_run (p : BitVec 4) (s : State) : (setPh p s).run = s.run := rfl
@[simp] theorem setPh_pins (p : BitVec 4) (s : State) : (setPh p s).pins = s.pins := rfl
@[simp] theorem setPh_acc (p : BitVec 4) (s : State) : (setPh p s).acc = s.acc := rfl
@[simp] theorem setPh_fb (p : BitVec 4) (s : State) : (setPh p s).fb = s.fb := rfl
@[simp] theorem setPh_tickPend (p : BitVec 4) (s : State) : (setPh p s).tickPend = s.tickPend := rfl
@[simp] theorem setPh_ph (p : BitVec 4) (s : State) : (setPh p s).ph = p := rfl
@[simp] theorem setPh_col (p : BitVec 4) (s : State) : (setPh p s).col = s.col := rfl
@[simp] theorem setPh_trace (p : BitVec 4) (s : State) : (setPh p s).trace = s.trace := rfl
@[simp] theorem setPh_earlier (p : BitVec 4) (s : State) : (setPh p s).earlier = s.earlier := rfl
@[simp] theorem setPh_lost (p : BitVec 4) (s : State) : (setPh p s).lost = s.lost := rfl
@[simp] theorem setPh_inp (p : BitVec 4) (s : State) : (setPh p s).inp = s.inp := rfl
@[simp] theorem setPh_stim (p : BitVec 4) (s : State) : (setPh p s).stim = s.stim := rfl
@[simp] theorem setPh_cells (p : BitVec 4) (s : State) : (setPh p s).cells = s.cells := rfl

/-! ## clearCol -/

@[simp] theorem clearCol_params (s : State) : (clearCol s).params = s.params := rfl
@[simp] theorem clearCol_row (s : State) : (clearCol s).row = s.row := rfl
@[simp] theorem clearCol_frame (s : State) : (clearCol s).frame = s.frame := rfl
@[simp] theorem clearCol_run (s : State) : (clearCol s).run = s.run := rfl
@[simp] theorem clearCol_pins (s : State) : (clearCol s).pins = s.pins := rfl
@[simp] theorem clearCol_acc (s : State) : (clearCol s).acc = s.acc := rfl
@[simp] theorem clearCol_fb (s : State) : (clearCol s).fb = s.fb := rfl
@[simp] theorem clearCol_tickPend (s : State) : (clearCol s).tickPend = s.tickPend := rfl
@[simp] theorem clearCol_ph (s : State) : (clearCol s).ph = s.ph := rfl
@[simp] theorem clearCol_col (s : State) : (clearCol s).col = 0 := rfl
@[simp] theorem clearCol_trace (s : State) : (clearCol s).trace = s.trace := rfl
@[simp] theorem clearCol_earlier (s : State) : (clearCol s).earlier = s.earlier := rfl
@[simp] theorem clearCol_lost (s : State) : (clearCol s).lost = s.lost := rfl
@[simp] theorem clearCol_inp (s : State) : (clearCol s).inp = s.inp := rfl
@[simp] theorem clearCol_stim (s : State) : (clearCol s).stim = s.stim := rfl
@[simp] theorem clearCol_cells (s : State) : (clearCol s).cells = s.cells := rfl

/-! ## advanceCol -/

@[simp] theorem advanceCol_params (s : State) : (advanceCol s).params = s.params := rfl
@[simp] theorem advanceCol_row (s : State) : (advanceCol s).row = s.row := rfl
@[simp] theorem advanceCol_frame (s : State) : (advanceCol s).frame = s.frame := rfl
@[simp] theorem advanceCol_run (s : State) : (advanceCol s).run = s.run := rfl
@[simp] theorem advanceCol_pins (s : State) : (advanceCol s).pins = s.pins := rfl
@[simp] theorem advanceCol_acc (s : State) : (advanceCol s).acc = s.acc := rfl
@[simp] theorem advanceCol_fb (s : State) : (advanceCol s).fb = s.fb := rfl
@[simp] theorem advanceCol_tickPend (s : State) : (advanceCol s).tickPend = s.tickPend := rfl
@[simp] theorem advanceCol_ph (s : State) : (advanceCol s).ph = s.ph := rfl
@[simp] theorem advanceCol_col (s : State) : (advanceCol s).col = (s.col + 1) % 2 ^ colWidth s.params := rfl
@[simp] theorem advanceCol_trace (s : State) : (advanceCol s).trace = s.trace := rfl
@[simp] theorem advanceCol_earlier (s : State) : (advanceCol s).earlier = s.earlier := rfl
@[simp] theorem advanceCol_lost (s : State) : (advanceCol s).lost = s.lost := rfl
@[simp] theorem advanceCol_inp (s : State) : (advanceCol s).inp = s.inp := rfl
@[simp] theorem advanceCol_stim (s : State) : (advanceCol s).stim = s.stim := rfl
@[simp] theorem advanceCol_cells (s : State) : (advanceCol s).cells = s.cells := rfl

/-! ## markLost -/

@[simp] theorem markLost_params (b : Bool) (s : State) : (markLost b s).params = s.params := rfl
@[simp] theorem markLost_row (b : Bool) (s : State) : (markLost b s).row = s.row := rfl
@[simp] theorem markLost_frame (b : Bool) (s : State) : (markLost b s).frame = s.frame := rfl
@[simp] theorem markLost_run (b : Bool) (s : State) : (markLost b s).run = s.run := rfl
@[simp] theorem markLost_pins (b : Bool) (s : State) : (markLost b s).pins = s.pins := rfl
@[simp] theorem markLost_acc (b : Bool) (s : State) : (markLost b s).acc = s.acc := rfl
@[simp] theorem markLost_fb (b : Bool) (s : State) : (markLost b s).fb = s.fb := rfl
@[simp] theorem markLost_tickPend (b : Bool) (s : State) : (markLost b s).tickPend = s.tickPend := rfl
@[simp] theorem markLost_ph (b : Bool) (s : State) : (markLost b s).ph = s.ph := rfl
@[simp] theorem markLost_col (b : Bool) (s : State) : (markLost b s).col = s.col := rfl
@[simp] theorem markLost_trace (b : Bool) (s : State) : (markLost b s).trace = s.trace := rfl
@[simp] theorem markLost_earlier (b : Bool) (s : State) : (markLost b s).earlier = s.earlier := rfl
@[simp] theorem markLost_lost (b : Bool) (s : State) : (markLost b s).lost = (s.lost || b) := rfl
@[simp] theorem markLost_inp (b : Bool) (s : State) : (markLost b s).inp = s.inp := rfl
@[simp] theorem markLost_stim (b : Bool) (s : State) : (markLost b s).stim = s.stim := rfl
@[simp] theorem markLost_cells (b : Bool) (s : State) : (markLost b s).cells = s.cells := rfl

/-! ## present -/

@[simp] theorem present_params (i : Inputs) (r : List Stimulus) (s : State) : (present i r s).params = s.params := rfl
@[simp] theorem present_row (i : Inputs) (r : List Stimulus) (s : State) : (present i r s).row = s.row := rfl
@[simp] theorem present_frame (i : Inputs) (r : List Stimulus) (s : State) : (present i r s).frame = s.frame := rfl
@[simp] theorem present_run (i : Inputs) (r : List Stimulus) (s : State) : (present i r s).run = s.run := rfl
@[simp] theorem present_pins (i : Inputs) (r : List Stimulus) (s : State) : (present i r s).pins = s.pins := rfl
@[simp] theorem present_acc (i : Inputs) (r : List Stimulus) (s : State) : (present i r s).acc = s.acc := rfl
@[simp] theorem present_fb (i : Inputs) (r : List Stimulus) (s : State) : (present i r s).fb = s.fb := rfl
@[simp] theorem present_tickPend (i : Inputs) (r : List Stimulus) (s : State) : (present i r s).tickPend = s.tickPend := rfl
@[simp] theorem present_ph (i : Inputs) (r : List Stimulus) (s : State) : (present i r s).ph = s.ph := rfl
@[simp] theorem present_col (i : Inputs) (r : List Stimulus) (s : State) : (present i r s).col = s.col := rfl
@[simp] theorem present_trace (i : Inputs) (r : List Stimulus) (s : State) : (present i r s).trace = s.trace := rfl
@[simp] theorem present_earlier (i : Inputs) (r : List Stimulus) (s : State) : (present i r s).earlier = s.earlier := rfl
@[simp] theorem present_lost (i : Inputs) (r : List Stimulus) (s : State) : (present i r s).lost = s.lost := rfl
@[simp] theorem present_inp (i : Inputs) (r : List Stimulus) (s : State) : (present i r s).inp = i := rfl
@[simp] theorem present_stim (i : Inputs) (r : List Stimulus) (s : State) : (present i r s).stim = r := rfl
@[simp] theorem present_cells (i : Inputs) (r : List Stimulus) (s : State) : (present i r s).cells = s.cells := rfl

end Sys2Proof.Machine
end

