-- ==== Sys2Proof/Laws/Ops.lean ====
section
/-! SUPPORT. What each shared operation can do, said once: sequencing, the access primitives, operands, pins,
and the arithmetic of a visit. -/

namespace Sys2Proof.Machine

/-! ## Sequencing -/

@[simp] theorem andThen_next (s : State) (k : State → Result) : andThen (.next s) k = k s := rfl
@[simp] theorem andThen_fault (f : Fault) (k : State → Result) : andThen (.fault f) k = .fault f := rfl
@[simp] theorem andThen_refused (r : Refusal) (k : State → Result) :
    andThen (.refused r) k = .refused r := rfl

/-- A sequence answers a next state exactly when both its parts do. -/
theorem andThen_eq_next {o : Result} {k : State → Result} {t : State} :
    andThen o k = .next t ↔ ∃ u, o = .next u ∧ k u = .next t := by
  cases o <;> simp

theorem andThen_assoc (o : Result) (k l : State → Result) :
    andThen (andThen o k) l = andThen o (fun s => andThen (k s) l) := by
  cases o <;> rfl

/-! ## Access primitives and operands -/

/-- `MemRead` succeeds exactly on a cell of the space that holds a value. -/
theorem readCell_eq_ok {sp : Space} {a : Nat} {s : State} {v : Byte} :
    readCell sp a s = .ok v ↔ a < s.cells ∧ (s.space sp).read a = some v := by
  unfold readCell
  split
  · next h =>
    split
    · next w hw => simp [hw, h]
    · next hw => simp [hw]
  · next h => simp [h]

@[simp] theorem space_fb (s : State) : s.space .fb = s.fb := rfl
@[simp] theorem space_acc (s : State) : s.space .acc = s.acc := rfl

/-- An operand is read exactly when it is long enough. -/
theorem withOperand_eq_next {w : OperandName} {buf : List Byte} {s t : State} {k : List Byte → Result} :
    withOperand w buf s k = .next t ↔ s.cells ≤ buf.length ∧ k (buf.take s.cells) = .next t := by
  unfold withOperand
  split <;> simp_all

theorem withOperand_long {w : OperandName} {buf : List Byte} {s : State} (h : s.cells ≤ buf.length)
    (k : List Byte → Result) : withOperand w buf s k = k (buf.take s.cells) := by
  unfold withOperand; rw [if_pos h]

theorem withOperand_short {w : OperandName} {buf : List Byte} {s : State} (h : buf.length < s.cells)
    (k : List Byte → Result) : withOperand w buf s k = .refused (.shortOperand w) := by
  unfold withOperand; rw [if_neg (by omega)]

/-! ## Addresses -/

/-- Every cell's address lies in the space (R41). -/
theorem cellAddr_lt {p : Params} {r c ch : Nat} (hr : r < 8) (hc : c < p.cols) (hch : ch < 2) :
    cellAddr p r c ch < 16 * p.cols := by
  have : r * p.cols ≤ 7 * p.cols := Nat.mul_le_mul_right _ (by omega)
  unfold cellAddr; omega

/-- Rows do not overlap: the cells of row `r` are the `2 * COLS` addresses from its first one on. -/
theorem cellAddr_row {p : Params} {r c ch : Nat} (hc : c < p.cols) (hch : ch < 2) :
    cellAddr p r 0 0 ≤ cellAddr p r c ch ∧ cellAddr p r c ch < cellAddr p r 0 0 + 2 * p.cols := by
  unfold cellAddr; omega

theorem cells_eq (s : State) : s.cells = 16 * s.params.cols := rfl

/-! ## Pins -/

@[simp] theorem Pins.get_set_same (ps : Pins) (p : Pin) (v : Level) : (ps.set p v).get p = v := by
  cases p <;> rfl

theorem Pins.get_set (ps : Pins) (p q : Pin) (v : Level) :
    (ps.set p v).get q = if p = q then v else ps.get q := by
  cases p <;> cases q <;> rfl

/-! ## The arithmetic of a visit -/

/-- The 9-bit sum is the exact sum (R103). -/
theorem ditherSum_toNat (a p : Byte) : (ditherSum a p).toNat = a.toNat + p.toNat := by
  have := a.isLt; have := p.isLt
  simp [ditherSum, BitVec.toNat_add]
  omega

/-- The emitted bit is the complement of the carry (R104). -/
theorem emittedBit_eq_not_carry (s : BitVec 9) : emittedBit s = !carryOf s := by
  have h : carryOf s = decide (256 ≤ s.toNat) := by
    have hs := s.isLt
    unfold carryOf
    rw [BitVec.getLsbD, Nat.testBit_eq_decide_div_mod_eq]
    congr 1
    apply propext
    omega
  rw [h, emittedBit]
  by_cases hs : s.toNat < 256
  · simp [hs]
  · simp [hs]; omega

/-- The residual is the sum modulo 256 (R105). -/
theorem residualOf_toNat (a p : Byte) : (residualOf (ditherSum a p)).toNat = (a.toNat + p.toNat) % 256 := by
  simp [residualOf, ditherSum_toNat]

/-- The residual is the 8-bit sum. -/
theorem residualOf_eq_add (a p : Byte) : residualOf (ditherSum a p) = a + p := by
  apply BitVec.eq_of_toNat_eq
  rw [residualOf_toNat, BitVec.toNat_add]

/-- The emitted bit is the one due. -/
theorem emittedBit_eq_due (a p : Byte) : emittedBit (ditherSum a p) = dueBit a p := by
  simp only [emittedBit, dueBit, ditherSum_toNat]

/-- The residual is the one due. -/
theorem residualOf_eq_due (a p : Byte) : residualOf (ditherSum a p) = dueResidual a p := by
  apply BitVec.eq_of_toNat_eq
  rw [residualOf_toNat, dueResidual, BitVec.toNat_ofNat]

/-- A zero pixel emits 1 and leaves the residual alone (R110 item 1). -/
theorem dueBit_zero (a : Byte) : dueBit a 0 = true := by
  have := a.isLt
  simpa [dueBit] using this

theorem dueResidual_zero (a : Byte) : dueResidual a 0 = a := by
  rw [← residualOf_eq_due, residualOf_eq_add]; simp

end Sys2Proof.Machine
end

