-- ==== Sys2Proof/Laws/Dither.lean ====
section
/-! SUPPORT. What a visit, a column and a row's rendering can do, said once each. -/

namespace Sys2Proof.Machine

/-- A visit answers exactly when its two cells hold a value; then this is its bit and its state. -/
theorem dither_eq_ok {a : Nat} {s t : State} {b : Level} :
    dither a s = .ok (b, t) ↔
      a < s.cells ∧ ∃ av pv, s.acc.read a = some av ∧ s.fb.read a = some pv ∧
        b = dueBit av pv ∧ t = storeAcc a (dueResidual av pv) s := by
  unfold dither
  simp only [emittedBit_eq_due, residualOf_eq_due]
  constructor
  · intro h
    split at h
    · cases h
    · next av hav =>
      split at h
      · cases h
      · next pv hpv =>
        rw [readCell_eq_ok] at hav hpv
        cases h
        exact ⟨hav.1, av, pv, hav.2, hpv.2, rfl, rfl⟩
  · rintro ⟨ha, av, pv, hav, hpv, rfl, rfl⟩
    have h1 : readCell .acc a s = .ok av := readCell_eq_ok.2 ⟨ha, hav⟩
    have h2 : readCell .fb a s = .ok pv := readCell_eq_ok.2 ⟨ha, hpv⟩
    simp only [h1, h2]

/-- A lane answers a next state exactly when its cells hold a value; then this is the state. -/
theorem ditherTo_eq_next {pin : Pin} {c ch : Nat} {s t : State} :
    ditherTo pin c ch s = .next t ↔
      cellAddr s.params s.row.toNat c ch < s.cells ∧ ∃ av pv,
        s.acc.read (cellAddr s.params s.row.toNat c ch) = some av ∧
        s.fb.read (cellAddr s.params s.row.toNat c ch) = some pv ∧
        t = emit pin (dueBit av pv)
          (storeAcc (cellAddr s.params s.row.toNat c ch) (dueResidual av pv) s) := by
  unfold ditherTo
  constructor
  · intro h
    split at h
    · cases h
    · next b u hd =>
      obtain ⟨ha, av, pv, h1, h2, rfl, rfl⟩ := dither_eq_ok.1 hd
      cases h
      exact ⟨ha, av, pv, h1, h2, rfl⟩
  · rintro ⟨ha, av, pv, h1, h2, rfl⟩
    simp only [dither_eq_ok.2 ⟨ha, av, pv, h1, h2, rfl, rfl⟩]

/-- The cells of columns `c` to `c + n - 1` of the row that `row` selects hold `A` in ACC and `P` in FB. -/
def ColumnsHold (s : State) (c n : Nat) (A P : Nat → Nat → Byte) : Prop :=
  ∀ c' ch, c ≤ c' → c' < c + n → ch < 2 →
    s.acc.read (cellAddr s.params s.row.toNat c' ch) = some (A c' ch) ∧
    s.fb.read (cellAddr s.params s.row.toNat c' ch) = some (P c' ch)

/-- What a rendering of columns `c` to `c + n - 1` does to the state. -/
structure Rendered (s : State) (c n : Nat) (A P : Nat → Nat → Byte) (t : State) : Prop where
  frame : t = { s with acc := t.acc, pins := t.pins, trace := t.trace }
  visited : ∀ c' ch, c ≤ c' → c' < c + n → ch < 2 →
    t.acc.read (cellAddr s.params s.row.toNat c' ch) = some (dueResidual (A c' ch) (P c' ch))
  others : ∀ a, a < cellAddr s.params s.row.toNat c 0 ∨ cellAddr s.params s.row.toNat c 0 + 2 * n ≤ a →
    t.acc.read a = s.acc.read a
  trace : t.trace = s.trace ++ (List.range' c n).flatMap (columnEvents A P)
  pins : t.pins = if n = 0 then s.pins else
    { s.pins with
      sclk := true, dr := dueBit (A (c + n - 1) 0) (P (c + n - 1) 0),
      dg := dueBit (A (c + n - 1) 1) (P (c + n - 1) 1) }
  inSpace : s.acc.wf ∧ (∀ x ∈ s.acc, x.1 < s.cells) → t.acc.wf ∧ ∀ x ∈ t.acc, x.1 < s.cells

theorem row_lt (r : Row) : r.toNat < 8 := r.isLt

/-- One column, with its cells known. -/
theorem column_holds {s : State} {c : Nat} {A P : Nat → Nat → Byte} (hc : c < s.params.cols)
    (h : ColumnsHold s c 1 A P) :
    column c s = .next (emit .sclk true
      (emit .dg (dueBit (A c 1) (P c 1)) (storeAcc (cellAddr s.params s.row.toNat c 1)
        (dueResidual (A c 1) (P c 1))
      (emit .dr (dueBit (A c 0) (P c 0)) (storeAcc (cellAddr s.params s.row.toNat c 0)
        (dueResidual (A c 0) (P c 0)) (emit .sclk false s)))))) := by
  have h0 := h c 0 le_rfl (by omega) (by omega)
  have h1 := h c 1 le_rfl (by omega) (by omega)
  have hne : cellAddr s.params s.row.toNat c 0 ≠ cellAddr s.params s.row.toNat c 1 := by
    unfold cellAddr; omega
  have l0 := cellAddr_lt (row_lt s.row) hc (show 0 < 2 by omega)
  have l1 := cellAddr_lt (row_lt s.row) hc (show 1 < 2 by omega)
  unfold column
  rw [ditherTo_eq_next.2 ⟨by simpa [chRed, cells_eq] using l0, _, _, by simpa [chRed] using h0.1,
      by simpa [chRed] using h0.2, rfl⟩, andThen_next,
    ditherTo_eq_next.2 ⟨by simpa [chGreen, cells_eq] using l1, _, _,
      by simpa [chRed, chGreen, Memory.read_write_other _ _ hne] using h1.1,
      by simpa [chGreen] using h1.2, rfl⟩]
  rfl

/-- A column that answers had a value in its four cells. -/
theorem column_next_holds {s t : State} {c : Nat} (h : column c s = .next t) :
    ∃ A P, ColumnsHold s c 1 A P := by
  unfold column at h
  obtain ⟨u, hu, h⟩ := andThen_eq_next.1 h
  obtain ⟨v, hv, -⟩ := andThen_eq_next.1 h
  obtain ⟨-, a0, p0, ha0, hp0, rfl⟩ := ditherTo_eq_next.1 hu
  obtain ⟨-, a1, p1, ha1, hp1, -⟩ := ditherTo_eq_next.1 hv
  have hne : cellAddr s.params s.row.toNat c 0 ≠ cellAddr s.params s.row.toNat c 1 := by
    unfold cellAddr; omega
  refine ⟨fun _ ch => if ch = 0 then a0 else a1, fun _ ch => if ch = 0 then p0 else p1, ?_⟩
  intro c' ch h1 h2 h3
  obtain rfl : c' = c := by omega
  rcases (show ch = 0 ∨ ch = 1 by omega) with rfl | rfl
  · simpa [chRed] using ⟨ha0, hp0⟩
  · have ha := ha1
    simp only [chRed, chGreen, emit_acc, emit_params, emit_row, storeAcc_acc, storeAcc_params,
      storeAcc_row, Memory.read_write_other _ _ hne] at ha
    exact ⟨by simpa using ha, by simpa [chGreen] using hp1⟩

/-- What one column does, as a rendering of one column. -/
theorem column_rendered {s : State} {c : Nat} {A P : Nat → Nat → Byte} (hc : c < s.params.cols)
    (h : ColumnsHold s c 1 A P) : ∃ t, column c s = .next t ∧ Rendered s c 1 A P t := by
  refine ⟨_, column_holds hc h, ?_⟩
  have hne : cellAddr s.params s.row.toNat c 1 ≠ cellAddr s.params s.row.toNat c 0 := by
    unfold cellAddr; omega
  have l0 := cellAddr_lt (row_lt s.row) hc (show 0 < 2 by omega)
  have l1 := cellAddr_lt (row_lt s.row) hc (show 1 < 2 by omega)
  constructor
  · rfl
  · intro c' ch h1 h2 h3
    obtain rfl : c' = c := by omega
    rcases (show ch = 0 ∨ ch = 1 by omega) with rfl | rfl
    · simp [Memory.read_write_other _ _ hne]
    · simp
  · intro a ha
    have e0 : cellAddr s.params s.row.toNat c 0 ≠ a := by unfold cellAddr at *; omega
    have e1 : cellAddr s.params s.row.toNat c 1 ≠ a := by unfold cellAddr at *; omega
    simp [Memory.read_write_other _ _ e0, Memory.read_write_other _ _ e1]
  · simp [columnEvents]
  · simp [Pins.set]
  · rintro ⟨hw, hb⟩
    refine ⟨Memory.write_wf (Memory.write_wf hw _ _) _ _, fun x hx => ?_⟩
    rcases Memory.mem_write hx with rfl | hx
    · exact l1
    · rcases Memory.mem_write hx with rfl | hx
      · exact l0
      · exact hb x hx

/-- Rendering `n` columns, with their cells known (R100, R107). -/
theorem columnsFrom_rendered {A P : Nat → Nat → Byte} (n c : Nat) (s : State)
    (hc : c + n ≤ s.params.cols) (h : ColumnsHold s c n A P) :
    ∃ t, columnsFrom c n s = .next t ∧ Rendered s c n A P t := by
  induction n generalizing c s with
  | zero =>
    refine ⟨s, rfl, ⟨rfl, fun _ _ _ _ _ => by omega, fun _ _ => rfl, by simp, by simp, id⟩⟩
  | succ n ih =>
    obtain ⟨u, hu, ru⟩ := column_rendered (c := c) (A := A) (P := P) (by omega)
      (fun c' ch h1 h2 h3 => h c' ch h1 (by omega) h3)
    have hp : u.params = s.params := by rw [ru.frame]
    have hr : u.row = s.row := by rw [ru.frame]
    have hf : u.fb = s.fb := by rw [ru.frame]
    have hcells : u.cells = s.cells := by rw [cells_eq, cells_eq, hp]
    obtain ⟨t, ht, rt⟩ := ih (c + 1) u (by rw [hp]; omega) (by
      intro c' ch h1 h2 h3
      rw [hp, hr, hf, ru.others _ (.inr (by unfold cellAddr; omega))]
      exact h c' ch (by omega) (by omega) h3)
    refine ⟨t, by simp only [columnsFrom, hu, andThen_next, ht], ?_⟩
    constructor
    · rw [rt.frame, ru.frame]
    · intro c' ch h1 h2 h3
      by_cases e : c' = c
      · subst e
        have := rt.others (cellAddr s.params s.row.toNat c' ch)
          (.inl (by rw [hp, hr]; unfold cellAddr; omega))
        rw [this]
        exact ru.visited c' ch le_rfl (by omega) h3
      · have := rt.visited c' ch (by omega) (by omega) h3
        rwa [hp, hr] at this
    · intro a ha
      rw [rt.others a (by rw [hp, hr]; unfold cellAddr at *; omega)]
      exact ru.others a (by unfold cellAddr at *; omega)
    · rw [rt.trace, ru.trace]
      simp only [List.range'_succ, List.range'_zero, List.flatMap_cons, List.flatMap_nil,
        List.append_nil, List.append_assoc]
    · rw [rt.pins, ru.pins]
      rcases n with _ | n
      · simp
      · simp [show c + 1 + (n + 1) - 1 = c + (n + 1 + 1) - 1 by omega]
    · intro hw
      have := rt.inSpace (by rw [hcells]; exact ru.inSpace hw)
      rwa [hcells] at this

/-- A rendering that answers had a value in every cell it visited; then it is this rendering. -/
theorem columnsFrom_next {n c : Nat} {s t : State} (hc : c + n ≤ s.params.cols)
    (h : columnsFrom c n s = .next t) : ∃ A P, ColumnsHold s c n A P ∧ Rendered s c n A P t := by
  suffices hs : ∃ A P, ColumnsHold s c n A P by
    obtain ⟨A, P, hAP⟩ := hs
    obtain ⟨u, hu, ru⟩ := columnsFrom_rendered n c s hc hAP
    rw [h] at hu
    cases hu
    exact ⟨A, P, hAP, ru⟩
  induction n generalizing c s with
  | zero => exact ⟨fun _ _ => 0, fun _ _ => 0, fun _ _ _ _ _ => by omega⟩
  | succ n ih =>
    rw [columnsFrom] at h
    obtain ⟨u, hu, h⟩ := andThen_eq_next.1 h
    obtain ⟨A, P, hAP⟩ := column_next_holds hu
    obtain ⟨u', hu', ru⟩ := column_rendered (by omega) hAP
    rw [hu] at hu'
    cases hu'
    have hp : u.params = s.params := by rw [ru.frame]
    have hr : u.row = s.row := by rw [ru.frame]
    have hf : u.fb = s.fb := by rw [ru.frame]
    obtain ⟨B, Q, hBQ⟩ := ih (c := c + 1) (s := u) (by rw [hp]; omega) h
    refine ⟨fun c' => if c' = c then A c' else B c', fun c' => if c' = c then P c' else Q c', ?_⟩
    intro c' ch h1 h2 h3
    by_cases e : c' = c
    · subst e; simpa using hAP c' ch le_rfl (by omega) h3
    · have := hBQ c' ch (by omega) (by omega) h3
      rw [hp, hr, hf, ru.others _ (.inr (by unfold cellAddr; omega))] at this
      simpa [e] using this

/-- RENDER, with the row's cells known (R100). -/
theorem render_rendered {s : State} {A P : Nat → Nat → Byte} (h : ColumnsHold s 0 s.params.cols A P) :
    ∃ t, render s = .next t ∧ Rendered s 0 s.params.cols A P t :=
  columnsFrom_rendered s.params.cols 0 s (by omega) h

/-- RENDER that answers. -/
theorem render_next {s t : State} (h : render s = .next t) :
    ∃ A P, ColumnsHold s 0 s.params.cols A P ∧ Rendered s 0 s.params.cols A P t :=
  columnsFrom_next (by omega) h

/-- A row whose cells all hold a value has some contents. -/
theorem columnsHold_of_defined {s : State} {c n : Nat}
    (h : ∀ c' ch, c ≤ c' → c' < c + n → ch < 2 →
      (s.acc.read (cellAddr s.params s.row.toNat c' ch)).isSome ∧
      (s.fb.read (cellAddr s.params s.row.toNat c' ch)).isSome) : ∃ A P, ColumnsHold s c n A P := by
  refine ⟨fun c' ch => (s.acc.read (cellAddr s.params s.row.toNat c' ch)).getD 0,
    fun c' ch => (s.fb.read (cellAddr s.params s.row.toNat c' ch)).getD 0, ?_⟩
  intro c' ch h1 h2 h3
  obtain ⟨ha, hp⟩ := h c' ch h1 h2 h3
  obtain ⟨av, hav⟩ := Option.isSome_iff_exists.1 ha
  obtain ⟨pv, hpv⟩ := Option.isSome_iff_exists.1 hp
  exact ⟨by simp [hav], by simp [hpv]⟩

end Sys2Proof.Machine
end

