-- ==== Sys2Proof/Laws/RowScanner.lean ====
section
/-! SUPPORT. What the steps of a tick can do, said once each: the header, SETFRAME, the Hook, the sync branch
and the render branch. -/

namespace Sys2Proof.Machine

/-- The header writes the pins LAT, A0, A1, A2 and its five events, nothing else (R88). -/
theorem header_eq (s : State) :
    header s = { s with
      pins := { s.pins with
        lat := false, a0 := s.row.getLsbD 0, a1 := s.row.getLsbD 1, a2 := s.row.getLsbD 2 }
      trace := s.trace ++ headerEvents s.row } := by
  simp [header, emit, Pins.set, headerEvents]

/-- SETFRAME's effect with a long enough operand (R124). -/
theorem loadFrame_eq_next {buf : List Byte} {s t : State} :
    loadFrame buf s = .next t ↔ s.cells ≤ buf.length ∧ t = fillFb (buf.take s.cells) s := by
  unfold loadFrame
  rw [withOperand_eq_next]
  constructor
  · rintro ⟨h, e⟩; cases e; exact ⟨h, rfl⟩
  · rintro ⟨h, rfl⟩; exact ⟨h, rfl⟩

/-- What FB reads after a whole-buffer write of `s.cells` bytes. -/
theorem read_fillFb_take {buf : List Byte} {s : State} (h : s.cells ≤ buf.length) (a : Nat) :
    (fillFb (buf.take s.cells) s).fb.read a = if a < s.cells then buf[a]? else s.fb.read a := by
  simp only [fillFb_fb, Memory.read_writeRun, List.length_take, Nat.sub_zero, Nat.zero_le, true_and,
    Nat.zero_add, Nat.min_eq_left h]
  split
  · next ha => rw [List.getElem?_take_of_lt ha]
  · rfl

/-- What FB reads after it is zeroed. -/
theorem read_zeroFb (s : State) (a : Nat) :
    (zeroFb s).fb.read a = if a < s.cells then some 0 else s.fb.read a := by
  simp only [zeroFb_fb, Memory.read_writeRun, List.length_replicate, Nat.sub_zero, Nat.zero_le, true_and,
    Nat.zero_add]
  split
  · next ha => simp [ha]
  · rfl

/-- The framebuffer after the Hook's SETFRAMEs, in order (R92). -/
def hookFb (cells : Nat) (m : Memory) (frames : List (List Byte)) : Memory :=
  match frames with
  | [] => m
  | b :: t => hookFb cells (m.writeRun 0 (b.take cells)) t

/-- The Hook's run answers exactly when every operand is long enough, and changes FB only (R92). -/
theorem runHook_eq_next {frames : List (List Byte)} {s t : State} :
    runHook frames s = .next t ↔
      (∀ b ∈ frames, s.cells ≤ b.length) ∧ t = { s with fb := hookFb s.cells s.fb frames } := by
  induction frames generalizing s with
  | nil => simp [runHook, hookFb, eq_comm]
  | cons b fs ih =>
    rw [runHook, andThen_eq_next]
    constructor
    · rintro ⟨u, hu, ht⟩
      obtain ⟨hb, rfl⟩ := loadFrame_eq_next.1 hu
      obtain ⟨hf, rfl⟩ := ih.1 ht
      refine ⟨fun x hx => ?_, by simp [hookFb, fillFb, cells_eq]⟩
      rcases List.mem_cons.1 hx with rfl | hx
      · exact hb
      · exact hf x hx
    · rintro ⟨hf, rfl⟩
      exact ⟨_, loadFrame_eq_next.2 ⟨hf b List.mem_cons_self, rfl⟩,
        ih.2 ⟨fun x hx => hf x (List.mem_cons_of_mem _ hx), by simp [hookFb, fillFb, cells_eq]⟩⟩

/-- A Hook with a short operand is refused, whatever it issues before it (R92, U1; log 13). -/
theorem runHook_short {frames : List (List Byte)} {s : State} (h : ∃ b ∈ frames, b.length < s.cells) :
    runHook frames s = .refused (.shortOperand .srcBuf) := by
  induction frames generalizing s with
  | nil => obtain ⟨_, hb, _⟩ := h; cases hb
  | cons b fs ih =>
    by_cases hb : b.length < s.cells
    · rw [runHook, loadFrame, withOperand_short hb]; rfl
    · rw [runHook, loadFrame_eq_next.2 ⟨Nat.le_of_not_lt hb, rfl⟩, andThen_next]
      refine ih ?_
      obtain ⟨c, hc, hl⟩ := h
      rcases List.mem_cons.1 hc with rfl | hc
      · exact absurd hl hb
      · exact ⟨c, hc, by simpa [cells_eq] using hl⟩

/-- What FB reads after the Hook: the last operand it issued, or what it read before. -/
theorem read_hookFb {cells : Nat} (m : Memory) (frames : List (List Byte))
    (h : ∀ b ∈ frames, cells ≤ b.length) (a : Nat) :
    (hookFb cells m frames).read a =
      match frames.getLast? with
      | none => m.read a
      | some b => if a < cells then b[a]? else m.read a := by
  induction frames generalizing m with
  | nil => rfl
  | cons b fs ih =>
    have hb := h b List.mem_cons_self
    have hrun : (m.writeRun 0 (b.take cells)).read a = if a < cells then b[a]? else m.read a := by
      simp only [Memory.read_writeRun, List.length_take, Nat.sub_zero, Nat.zero_le, true_and,
        Nat.zero_add, Nat.min_eq_left hb]
      split
      · next ha => rw [List.getElem?_take_of_lt ha]
      · rfl
    rw [hookFb, ih _ (fun x hx => h x (List.mem_cons_of_mem _ hx))]
    cases fs with
    | nil => simpa using hrun
    | cons c gs =>
      rw [List.getLast?_cons_cons]
      cases hl : (c :: gs).getLast? with
      | none => simp at hl
      | some x =>
        simp only [hrun]
        split <;> rfl

/-- The Hook's SETFRAMEs keep the framebuffer canonical and in its space. -/
theorem hookFb_inSpace {cells : Nat} {m : Memory} (frames : List (List Byte)) (hm : m.inSpace cells) :
    (hookFb cells m frames).inSpace cells := by
  induction frames generalizing m with
  | nil => exact hm
  | cons b fs ih =>
    refine ih ⟨Memory.writeRun_wf hm.1 _ _, fun c hc => ?_⟩
    rcases Memory.mem_writeRun hc with hc | hc
    · exact hm.2 c hc
    · simp only [List.length_take] at hc; omega

/-- A whole-buffer write keeps a memory canonical and in its space. -/
theorem writeRun_inSpace {cells : Nat} {m : Memory} {bs : List Byte} (hm : m.inSpace cells)
    (hb : bs.length ≤ cells) : (m.writeRun 0 bs).inSpace cells :=
  ⟨Memory.writeRun_wf hm.1 _ _, fun c hc => by
    rcases Memory.mem_writeRun hc with hc | hc
    · exact hm.2 c hc
    · omega⟩

/-- A run of writes leaves defined cells defined. -/
theorem isSome_read_writeRun {m : Memory} {a b : Nat} {bs : List Byte} (h : (m.read b).isSome) :
    ((m.writeRun a bs).read b).isSome := by
  rw [Memory.read_writeRun]
  split
  · next hb => rw [List.getElem?_eq_getElem (by omega)]; rfl
  · exact h

/-- The Hook's SETFRAMEs leave defined cells defined. -/
theorem isSome_read_hookFb {cells : Nat} {m : Memory} {a : Nat} (frames : List (List Byte))
    (h : (m.read a).isSome) : ((hookFb cells m frames).read a).isSome := by
  induction frames generalizing m with
  | nil => exact h
  | cons b fs ih => exact ih (isSome_read_writeRun h)

/-- The sync branch: the event, the Hook's SETFRAMEs, then its return (R85, R86, R92). -/
theorem syncTick_eq_next {s t : State} :
    syncTick s = .next t ↔
      (∀ b ∈ s.inp.hook.frames, s.cells ≤ b.length) ∧
      t = afterHook s.inp.hook.returns
        { s with trace := s.trace ++ [.sync s.frame], fb := hookFb s.cells s.fb s.inp.hook.frames } := by
  unfold syncTick
  rw [andThen_eq_next]
  constructor
  · rintro ⟨u, hu, ht⟩
    obtain ⟨hf, rfl⟩ := runHook_eq_next.1 hu
    cases ht
    exact ⟨hf, rfl⟩
  · rintro ⟨hf, rfl⟩
    exact ⟨_, runHook_eq_next.2 ⟨hf, rfl⟩, rfl⟩

theorem isSync_iff {r : Row} : isSync r = true ↔ r = 7 := by simp [isSync]

/-- The state in which a tick's branch is taken: the cursor advanced, the header written. -/
abbrev afterHeader (s : State) : State := header (advanceRow s)

/-- A tick that answers took the sync branch or rendered its row (R80). -/
theorem tickBody_next {s t : State} (h : tickBody s = .next t) :
    s.row + 1 = 7 ∧ syncTick (afterHeader s) = .next t ∨
    s.row + 1 ≠ 7 ∧ render (afterHeader s) = .next t := by
  unfold tickBody scanRow at h
  have hr : (header (advanceRow s)).row = s.row + 1 := by rw [header_eq]; rfl
  split at h
  · next e => rw [hr] at e; exact .inl ⟨isSync_iff.1 e, h⟩
  · next e => rw [hr] at e; exact .inr ⟨fun e' => e (isSync_iff.2 e'), h⟩

theorem tickBody_sync {s : State} (h : s.row + 1 = 7) : tickBody s = syncTick (afterHeader s) := by
  unfold tickBody scanRow
  rw [if_pos]
  rw [header_eq]; exact isSync_iff.2 h

theorem tickBody_render {s : State} (h : s.row + 1 ≠ 7) : tickBody s = render (afterHeader s) := by
  unfold tickBody scanRow
  rw [if_neg]
  rw [header_eq]; exact fun e => h (isSync_iff.1 e)

end Sys2Proof.Machine
end

