-- ==== Sys2Proof/Laws/Lifecycle.lean ====
section
/-! SUPPORT. What the lifecycle operations can do, said once each. -/

namespace Sys2Proof.Machine

/-- INIT's effect with a long enough operand (R121). -/
theorem loadInit_eq_next {s t : State} :
    loadInit s = .next t ↔
      s.cells ≤ s.inp.seedBuf.length ∧
      t = { s with
        fb := s.fb.writeRun 0 (List.replicate s.cells 0)
        acc := s.acc.writeRun 0 (s.inp.seedBuf.take s.cells), row := 0, frame := 0 } := by
  unfold loadInit
  rw [withOperand_eq_next]
  constructor
  · rintro ⟨h, e⟩; cases e; exact ⟨h, rfl⟩
  · rintro ⟨h, rfl⟩; exact ⟨h, rfl⟩

/-- ENABLE's effect (R122). -/
theorem assertPanel_eq (s : State) :
    assertPanel s = { s with
      run := true, pins := { s.pins with panelEn := true }
      trace := s.trace ++ [.out .panelEn true] } := rfl

/-- DISABLE's first half (R123). -/
theorem quiesce_eq (s : State) :
    quiesce s = { s with
      run := false, tickPend := false, pins := { s.pins with panelEn := false }
      trace := s.trace ++ [.out .panelEn false]
      fb := s.fb.writeRun 0 (List.replicate s.cells 0) } := rfl

/-- DISABLE's flush tick starts from row 0 and so is the render tick of row 1 (R123). -/
theorem execDisable_eq (s : State) : execDisable s = render (afterHeader (setRow 0 (quiesce s))) := by
  unfold execDisable
  exact tickBody_render (by simp)

end Sys2Proof.Machine
end

