-- ==== Sys2Proof/Laws/Exec.lean ====
section
/-! SUPPORT. What any instruction can do to the state, said once: `Eff` and `exec_effect`, which later proofs
cite instead of unfolding the meanings. -/

namespace Sys2Proof.Machine

/-- What `s` and a later state `t` share when the events `es` lie between them: nothing touches the parameters,
the ports, the stimuli or the marks; the trace grows by `es`; each pin is what `es` says; the memories stay
canonical and no cell loses its value. -/
structure Eff (s : State) (es : List Event) (t : State) : Prop where
  params : t.params = s.params
  inp : t.inp = s.inp
  stim : t.stim = s.stim
  lost : t.lost = s.lost
  earlier : t.earlier = s.earlier
  trace : t.trace = s.trace ++ es
  pins : ∀ p, t.pins.get p = pinAfter p (s.pins.get p) es
  acc : s.acc.inSpace s.cells → t.acc.inSpace s.cells
  fb : s.fb.inSpace s.cells → t.fb.inSpace s.cells
  accD : ∀ a, (s.acc.read a).isSome → (t.acc.read a).isSome
  fbD : ∀ a, (s.fb.read a).isSome → (t.fb.read a).isSome

/-- Pin levels compose along the events. -/
theorem pinAfter_append (p : Pin) (l : Level) (es fs : List Event) :
    pinAfter p l (es ++ fs) = pinAfter p (pinAfter p l es) fs := by
  induction es generalizing l with
  | nil => rfl
  | cons e t ih => cases e <;> exact ih _

theorem Eff.refl (s : State) : Eff s [] s :=
  ⟨rfl, rfl, rfl, rfl, rfl, by simp, fun _ => rfl, id, id, fun _ => id, fun _ => id⟩

/-- Effects compose, the events in order. -/
theorem Eff.trans {s u t : State} {es fs : List Event} (h : Eff s es u) (k : Eff u fs t) :
    Eff s (es ++ fs) t := by
  have hc : u.cells = s.cells := by rw [cells_eq, cells_eq, h.params]
  refine ⟨k.params.trans h.params, k.inp.trans h.inp, k.stim.trans h.stim, k.lost.trans h.lost,
    k.earlier.trans h.earlier, by rw [k.trace, h.trace, List.append_assoc], fun p => ?_, fun x => ?_,
    fun x => ?_, fun a x => k.accD a (h.accD a x), fun a x => k.fbD a (h.fbD a x)⟩
  · rw [k.pins, h.pins, pinAfter_append]
  · have := k.acc (by rw [hc]; exact h.acc x)
    rwa [hc] at this
  · have := k.fb (by rw [hc]; exact h.fb x)
    rwa [hc] at this

theorem eff_emit (p : Pin) (v : Level) (s : State) : Eff s [.out p v] (emit p v s) :=
  ⟨rfl, rfl, rfl, rfl, rfl, rfl, fun q => by simp [Pins.get_set, pinAfter], id, id, fun _ => id,
    fun _ => id⟩

theorem eff_emitSync (s : State) : Eff s [.sync s.frame] (emitSync s) :=
  ⟨rfl, rfl, rfl, rfl, rfl, rfl, fun _ => rfl, id, id, fun _ => id, fun _ => id⟩

/-- A change of registers only. -/
theorem eff_registers {s t : State}
    (h : t = { s with
      row := t.row, frame := t.frame, run := t.run, tickPend := t.tickPend, ph := t.ph, col := t.col }) :
    Eff s [] t := by
  rw [h]
  exact ⟨rfl, rfl, rfl, rfl, rfl, by simp, fun _ => rfl, id, id, fun _ => id, fun _ => id⟩

theorem eff_setPh (p : BitVec 4) (s : State) : Eff s [] (setPh p s) := eff_registers rfl

theorem eff_fillFb (bs : List Byte) (s : State) (h : bs.length ≤ s.cells) : Eff s [] (fillFb bs s) :=
  ⟨rfl, rfl, rfl, rfl, rfl, by simp, fun _ => rfl, id, fun x => writeRun_inSpace x h, fun _ => id,
    fun _ => isSome_read_writeRun⟩

theorem eff_fillAcc (bs : List Byte) (s : State) (h : bs.length ≤ s.cells) : Eff s [] (fillAcc bs s) :=
  ⟨rfl, rfl, rfl, rfl, rfl, by simp, fun _ => rfl, fun x => writeRun_inSpace x h, id,
    fun _ => isSome_read_writeRun, fun _ => id⟩

theorem eff_zeroFb (s : State) : Eff s [] (zeroFb s) := eff_fillFb _ _ (by simp)

theorem eff_storeAcc (a : Nat) (v : Byte) (s : State) (h : a < s.cells) : Eff s [] (storeAcc a v s) := by
  refine ⟨rfl, rfl, rfl, rfl, rfl, by simp, fun _ => rfl,
    fun x => ⟨Memory.write_wf x.1 _ _, fun c hc => ?_⟩, id, fun b hb => ?_, fun _ => id⟩
  · rcases Memory.mem_write hc with rfl | hc
    · exact h
    · exact x.2 c hc
  · rw [storeAcc_acc, Memory.read_write]
    split <;> simp_all

/-- A visit emits one event and writes one cell (R101, R102). -/
theorem eff_ditherTo {pin : Pin} {c ch : Nat} {s t : State} (h : ditherTo pin c ch s = .next t) :
    ∃ b, Eff s [.out pin b] t ∧ t = { s with acc := t.acc, pins := t.pins, trace := t.trace } := by
  obtain ⟨ha, av, pv, -, -, rfl⟩ := ditherTo_eq_next.1 h
  exact ⟨_, (eff_storeAcc _ _ _ ha).trans (eff_emit _ _ _), rfl⟩

theorem eff_column {c : Nat} {s t : State} (h : column c s = .next t) :
    ∃ es, Eff s es t ∧ t = { s with acc := t.acc, pins := t.pins, trace := t.trace } := by
  unfold column at h
  obtain ⟨u, hu, h⟩ := andThen_eq_next.1 h
  obtain ⟨v, hv, h⟩ := andThen_eq_next.1 h
  cases h
  obtain ⟨_, e1, f1⟩ := eff_ditherTo hu
  obtain ⟨_, e2, f2⟩ := eff_ditherTo hv
  exact ⟨_, (((eff_emit _ _ _).trans e1).trans e2).trans (eff_emit _ _ _),
    by simp only [emit]; rw [f2, f1]; rfl⟩

theorem eff_columnsFrom {n c : Nat} {s t : State} (h : columnsFrom c n s = .next t) :
    ∃ es, Eff s es t ∧ t = { s with acc := t.acc, pins := t.pins, trace := t.trace } := by
  induction n generalizing c s with
  | zero => cases h; exact ⟨_, Eff.refl _, rfl⟩
  | succ n ih =>
    obtain ⟨u, hu, h⟩ := andThen_eq_next.1 h
    obtain ⟨_, e1, f1⟩ := eff_column hu
    obtain ⟨_, e2, f2⟩ := ih h
    exact ⟨_, e1.trans e2, by rw [f2, f1]⟩

theorem eff_header (s : State) : Eff s (headerEvents s.row) (header s) :=
  ((((eff_emit _ _ _).trans (eff_emit _ _ _)).trans (eff_emit _ _ _)).trans (eff_emit _ _ _)).trans
    (eff_emit _ _ _)

theorem eff_hookFb (s : State) (frames : List (List Byte)) :
    Eff s [] { s with fb := hookFb s.cells s.fb frames } :=
  ⟨rfl, rfl, rfl, rfl, rfl, by simp, fun _ => rfl, id, fun x => hookFb_inSpace _ x, fun _ => id,
    fun _ => isSome_read_hookFb _⟩

/-- What a taken tick does to the registers, on both branches (R80, R81, R86, R92). -/
theorem tickBody_effect {s t : State} (h : tickBody s = .next t) :
    (∃ es, Eff s es t) ∧ t.row = s.row + 1 ∧ t.run = s.run ∧ t.tickPend = s.tickPend ∧ t.col = s.col ∧
    t.pins.lat = false ∧ t.pins.panelEn = s.pins.panelEn ∧
    ((s.row + 1 = 7 ∧ (t.ph = s.ph ∧ t.frame = (s.frame + 1) % 2 ^ s.params.fcw ∨
        t.ph = codeSyncWait ∧ t.frame = s.frame)) ∨
      (s.row + 1 ≠ 7 ∧ t.ph = s.ph ∧ t.frame = s.frame)) := by
  have e0 : Eff s _ (afterHeader s) := (eff_registers (t := advanceRow s) rfl).trans (eff_header _)
  rcases tickBody_next h with ⟨h1, h2⟩ | ⟨h1, h2⟩
  · obtain ⟨-, rfl⟩ := syncTick_eq_next.1 h2
    refine ⟨⟨_, (e0.trans (eff_emitSync _)).trans ((eff_hookFb (emitSync (afterHeader s))
      (afterHeader s).inp.hook.frames).trans (eff_registers ?_))⟩, ?_⟩
    · unfold afterHook; split <;> rfl
    · unfold afterHook
      rw [afterHeader, header_eq]
      split
      · exact ⟨rfl, rfl, rfl, rfl, rfl, rfl, .inl ⟨h1, .inl ⟨rfl, rfl⟩⟩⟩
      · exact ⟨rfl, rfl, rfl, rfl, rfl, rfl, .inl ⟨h1, .inr ⟨rfl, rfl⟩⟩⟩
  · obtain ⟨es, e1, f1⟩ := eff_columnsFrom h2
    obtain ⟨A, P, -, rr⟩ := render_next h2
    refine ⟨⟨_, e0.trans e1⟩, ?_⟩
    rw [f1]
    simp only
    rw [rr.pins, afterHeader, header_eq]
    refine ⟨rfl, rfl, rfl, rfl, ?_, ?_, .inr ⟨h1, rfl, rfl⟩⟩ <;> split <;> rfl

theorem eff_loadInit {s t : State} (h : loadInit s = .next t) : Eff s [] t := by
  obtain ⟨-, rfl⟩ := loadInit_eq_next.1 h
  exact ((eff_zeroFb s).trans (eff_fillAcc (s.inp.seedBuf.take s.cells) (zeroFb s) (by simp))).trans
    (eff_registers rfl)

theorem eff_loadFrame {buf : List Byte} {s t : State} (h : loadFrame buf s = .next t) : Eff s [] t := by
  obtain ⟨-, rfl⟩ := loadFrame_eq_next.1 h
  exact eff_fillFb _ _ (by simp)

theorem eff_assertPanel (s : State) : Eff s [.out .panelEn true] (assertPanel s) :=
  (eff_registers (t := setRun true s) rfl).trans (eff_emit _ _ _)

theorem eff_acceptDisable (s : State) : Eff s [.out .panelEn false] (acceptDisable s) :=
  (((eff_registers (t := setRun false s) rfl).trans (eff_emit _ _ _)).trans (eff_zeroFb _)).trans
    (eff_registers rfl)

/-- What any instruction can do, said once; but for TICK and DISABLE it emits at most one event (R51, R140). -/
theorem exec_effect {i : Instr} {s t : State} (h : exec i s = .next t) :
    ∃ es, Eff s es t ∧ (i ≠ .tick → i ≠ .disable → es.length ≤ 1) := by
  cases i with
  | tick =>
    simp only [exec, execTick] at h
    split at h
    · obtain ⟨⟨es, e⟩, -⟩ := tickBody_effect h
      exact ⟨es, e, fun x => absurd rfl x⟩
    · cases h; exact ⟨_, Eff.refl _, by simp⟩
  | nop => cases h; exact ⟨_, Eff.refl _, by simp⟩
  | reservedCmd5 => cases h; exact ⟨_, Eff.refl _, by simp⟩
  | reservedCmd6 => cases h; exact ⟨_, Eff.refl _, by simp⟩
  | reservedCmd7 => cases h; exact ⟨_, Eff.refl _, by simp⟩
  | init => exact ⟨_, eff_loadInit h, by simp⟩
  | enable => cases h; exact ⟨_, eff_assertPanel s, by simp⟩
  | setframe => exact ⟨_, eff_loadFrame h, by simp⟩
  | disable =>
    obtain ⟨⟨es, e⟩, -⟩ := tickBody_effect (show tickBody (setRow 0 (quiesce s)) = .next t from h)
    have e1 : Eff s [] (setPend false (setRun false s)) := eff_registers rfl
    exact ⟨_, (((e1.trans (eff_emit .panelEn false _)).trans (eff_zeroFb _)).trans
      (eff_registers (t := setRow 0 (quiesce s)) rfl)).trans e, fun _ x => absurd rfl x⟩
  | phIdle =>
    simp only [exec, execPhIdle, execCmd] at h
    split at h
    · split at h
      · exact ⟨_, eff_loadInit h, by simp⟩
      split at h
      · cases h; exact ⟨_, eff_assertPanel s, by simp⟩
      split at h
      · exact ⟨_, eff_loadFrame h, by simp⟩
      split at h
      · cases h; exact ⟨_, eff_acceptDisable s, by simp⟩
      · cases h; exact ⟨_, Eff.refl _, by simp⟩
    · split at h
      · cases h; exact ⟨_, eff_registers rfl, by simp⟩
      · cases h; exact ⟨_, Eff.refl _, by simp⟩
  | phLatHi => cases h; exact ⟨_, (eff_emit _ _ _).trans (eff_setPh _ _), by simp⟩
  | phAddr0 => cases h; exact ⟨_, (eff_emit _ _ _).trans (eff_setPh _ _), by simp⟩
  | phAddr1 => cases h; exact ⟨_, (eff_emit _ _ _).trans (eff_setPh _ _), by simp⟩
  | phAddr2 => cases h; exact ⟨_, (eff_emit _ _ _).trans (eff_setPh _ _), by simp⟩
  | phClkLo => cases h; exact ⟨_, (eff_emit _ _ _).trans (eff_setPh _ _), by simp⟩
  | phLatLo =>
    simp only [exec, execPhLatLo] at h
    split at h <;> cases h
    · exact ⟨_, (eff_emit _ _ _).trans (eff_setPh _ _), by simp⟩
    · exact ⟨_, (eff_emit .lat false s).trans (eff_registers (s := emit .lat false s) rfl), by simp⟩
  | phSyncReq => cases h; exact ⟨_, (eff_emitSync _).trans (eff_setPh _ _), by simp⟩
  | phSyncWait =>
    simp only [exec, execPhSyncWait] at h
    obtain ⟨u, hu, h⟩ := andThen_eq_next.1 h
    have e1 : Eff s [] u := by
      split at hu
      · exact eff_loadFrame hu
      · cases hu; exact Eff.refl _
    split at h <;> cases h
    · exact ⟨_, e1.trans (eff_registers rfl), by simp⟩
    · exact ⟨_, e1.trans (eff_registers rfl), by simp⟩
  | phRed =>
    obtain ⟨u, hu, h⟩ := andThen_eq_next.1 h
    cases h
    obtain ⟨_, e, -⟩ := eff_ditherTo hu
    exact ⟨_, e.trans (eff_setPh _ _), by simp⟩
  | phGrn =>
    obtain ⟨u, hu, h⟩ := andThen_eq_next.1 h
    cases h
    obtain ⟨_, e, -⟩ := eff_ditherTo hu
    exact ⟨_, e.trans (eff_setPh _ _), by simp⟩
  | phClkHi =>
    simp only [exec, execPhClkHi] at h
    split at h <;> cases h
    · exact ⟨_, (eff_emit _ _ _).trans (eff_setPh _ _), by simp⟩
    · exact ⟨_, (eff_emit .sclk true s).trans (eff_registers (s := emit .sclk true s) rfl), by simp⟩
  | phReserved x => cases h; exact ⟨_, eff_setPh _ _, by simp⟩

end Sys2Proof.Machine
end

