-- ==== Sys2Proof/Laws/PerInstr.lean ====
section
/-! SUPPORT. Statements made per instruction. CodeFits: an instruction's code fits the port it stands on
(spec/30_encoding.md R60). -/

namespace Sys2Proof.Laws

/-- The code of the instruction sets no bit that its port does not have. -/
def CodeFits.Statement (i : Instr) : Prop := (encode i).wf = true

theorem CodeFits.tick : CodeFits.Statement .tick := by unfold CodeFits.Statement; decide
theorem CodeFits.nop : CodeFits.Statement .nop := by unfold CodeFits.Statement; decide
theorem CodeFits.init : CodeFits.Statement .init := by unfold CodeFits.Statement; decide
theorem CodeFits.enable : CodeFits.Statement .enable := by unfold CodeFits.Statement; decide
theorem CodeFits.disable : CodeFits.Statement .disable := by unfold CodeFits.Statement; decide
theorem CodeFits.setframe : CodeFits.Statement .setframe := by unfold CodeFits.Statement; decide
theorem CodeFits.reservedCmd5 : CodeFits.Statement .reservedCmd5 := by unfold CodeFits.Statement; decide
theorem CodeFits.reservedCmd6 : CodeFits.Statement .reservedCmd6 := by unfold CodeFits.Statement; decide
theorem CodeFits.reservedCmd7 : CodeFits.Statement .reservedCmd7 := by unfold CodeFits.Statement; decide
theorem CodeFits.phIdle : CodeFits.Statement .phIdle := by unfold CodeFits.Statement; decide
theorem CodeFits.phLatHi : CodeFits.Statement .phLatHi := by unfold CodeFits.Statement; decide
theorem CodeFits.phAddr0 : CodeFits.Statement .phAddr0 := by unfold CodeFits.Statement; decide
theorem CodeFits.phAddr1 : CodeFits.Statement .phAddr1 := by unfold CodeFits.Statement; decide
theorem CodeFits.phAddr2 : CodeFits.Statement .phAddr2 := by unfold CodeFits.Statement; decide
theorem CodeFits.phLatLo : CodeFits.Statement .phLatLo := by unfold CodeFits.Statement; decide
theorem CodeFits.phSyncReq : CodeFits.Statement .phSyncReq := by unfold CodeFits.Statement; decide
theorem CodeFits.phSyncWait : CodeFits.Statement .phSyncWait := by unfold CodeFits.Statement; decide
theorem CodeFits.phClkLo : CodeFits.Statement .phClkLo := by unfold CodeFits.Statement; decide
theorem CodeFits.phRed : CodeFits.Statement .phRed := by unfold CodeFits.Statement; decide
theorem CodeFits.phGrn : CodeFits.Statement .phGrn := by unfold CodeFits.Statement; decide
theorem CodeFits.phClkHi : CodeFits.Statement .phClkHi := by unfold CodeFits.Statement; decide
theorem CodeFits.phReserved (x : BitVec 2) : CodeFits.Statement (.phReserved x) := by
  unfold CodeFits.Statement; revert x; decide

end Sys2Proof.Laws
end

