-- ==== Sys2Proof/Laws/Step.lean ====
section
/-! SUPPORT. What a step can do, said once: the shape of the coming turn, and the three forms of a step. -/

namespace Sys2Proof.Machine

@[simp] theorem holdStimulus_rst (x : Stimulus) (inp : Inputs) : (holdStimulus x inp).rst = inp.rst := by
  cases x <;> simp only [holdStimulus, holdCommand]
  split <;> rfl

@[simp] theorem holdStimulus_tick (x : Stimulus) (inp : Inputs) : (holdStimulus x inp).tick = inp.tick := by
  cases x <;> simp only [holdStimulus, holdCommand]
  split <;> rfl

@[simp] theorem holdStimulus_syncAck (x : Stimulus) (inp : Inputs) :
    (holdStimulus x inp).syncAck = inp.syncAck := by
  cases x <;> simp only [holdStimulus, holdCommand]
  split <;> rfl

/-- While a command is held `cmd_valid` is 1 (R125). -/
theorem holdCommand_cmdValid (c : BitVec 3) (src seed : List Byte) (inp : Inputs) :
    (holdCommand c src seed inp).cmdValid = true := by
  unfold holdCommand
  split
  · assumption
  · rfl

/-- A command that is not ready is not accepted by being held: only the cycle's own command can be (R125). -/
theorem acceptIn_holdCommand {ph : BitVec 4} {c : BitVec 3} (h : cmdReady ph c = false) (src seed : List Byte)
    (inp : Inputs) : acceptIn ph (holdCommand c src seed inp) = acceptIn ph inp := by
  unfold holdCommand
  split
  · rfl
  · next hv => simp [acceptIn, h, hv]

/-- The cycles of a waiting operation leave the operations behind it in place (R125). -/
theorem afterCycle_operations (xs : List Stimulus) :
    (afterCycle xs).filter Stimulus.isOperation = xs.filter Stimulus.isOperation := by
  induction xs with
  | nil => rfl
  | cons x t ih => cases x <;> simp [afterCycle, List.filter_cons, Stimulus.isOperation, ih]

/-- Where no clock cycle is presented, the ports of a waiting stimulus are quiet and nothing is used up. -/
theorem cycle_none {xs : List Stimulus} (h : ∀ inp, .cycle inp ∉ xs) :
    cyclePorts xs = Inputs.quiet ∧ afterCycle xs = xs := by
  induction xs with
  | nil => exact ⟨rfl, rfl⟩
  | cons x t ih =>
    have := ih fun inp hm => h inp (List.mem_cons_of_mem _ hm)
    cases x with
    | tick _ => exact ⟨this.1, by rw [afterCycle, this.2]⟩
    | command _ _ _ => exact ⟨this.1, by rw [afterCycle, this.2]⟩
    | cycle inp => exact absurd List.mem_cons_self (h inp)

/-- The first clock cycle that is presented is the one used up; what stands before it stays. -/
theorem cycle_first {ops rest : List Stimulus} {inp : Inputs} (h : ∀ i, .cycle i ∉ ops) :
    cyclePorts (ops ++ .cycle inp :: rest) = inp ∧
    afterCycle (ops ++ .cycle inp :: rest) = ops ++ rest := by
  induction ops with
  | nil => exact ⟨rfl, rfl⟩
  | cons x t ih =>
    have := ih fun i hm => h i (List.mem_cons_of_mem _ hm)
    cases x with
    | tick _ => exact ⟨this.1, congrArg (List.cons _) this.2⟩
    | command _ _ _ => exact ⟨this.1, congrArg (List.cons _) this.2⟩
    | cycle i => exact absurd List.mem_cons_self (h i)

/-- What stays of the stimuli was there before. -/
theorem mem_of_mem_afterCycle {xs : List Stimulus} {x : Stimulus} (h : x ∈ afterCycle xs) : x ∈ xs := by
  induction xs with
  | nil => exact h
  | cons y t ih =>
    cases y with
    | cycle _ => exact List.mem_cons_of_mem _ h
    | tick _ =>
      rcases List.mem_cons.1 h with rfl | h
      · exact List.mem_cons_self
      · exact List.mem_cons_of_mem _ (ih h)
    | command _ _ _ =>
      rcases List.mem_cons.1 h with rfl | h
      · exact List.mem_cons_self
      · exact List.mem_cons_of_mem _ (ih h)

/-- The ports of a waiting stimulus's cycle are quiet or those of a presented cycle. -/
theorem cyclePorts_mem (xs : List Stimulus) :
    cyclePorts xs = Inputs.quiet ∨ .cycle (cyclePorts xs) ∈ xs := by
  induction xs with
  | nil => exact .inl rfl
  | cons y t ih =>
    cases y with
    | cycle _ => exact .inr List.mem_cons_self
    | tick _ => exact ih.imp id (List.mem_cons_of_mem _)
    | command _ _ _ => exact ih.imp id (List.mem_cons_of_mem _)

/-- The coming turn is a clock cycle with the presented ports, a quiet clock cycle with no stimulus left, a
clock cycle in which the operation in front waits because the sequencer is not ready for it, a tick taken in
IDLE, or a command taken when the sequencer is ready for it. -/
theorem nextTurn_cases (s : State) :
    (∃ inp rest, s.stim = .cycle inp :: rest ∧ nextTurn s = clockTurn s inp rest) ∨
    (s.stim = [] ∧ nextTurn s = clockTurn s Inputs.quiet []) ∨
    (∃ x rest, s.stim = x :: rest ∧
      ((∃ h, x = .tick h) ∧ s.ph ≠ codeIdle ∨
        ∃ c src seed, x = .command c src seed ∧ cmdReady s.ph c = false) ∧
      nextTurn s = clockTurn s (holdStimulus x (cyclePorts rest)) (x :: afterCycle rest)) ∨
    (∃ h rest, s.stim = .tick h :: rest ∧ s.ph = codeIdle ∧ nextTurn s = tickTurn h rest) ∨
    (∃ c src seed rest, s.stim = .command c src seed :: rest ∧ cmdReady s.ph c = true ∧
      nextTurn s = commandTurn c src seed rest) := by
  unfold nextTurn
  split
  · next h => exact .inr (.inl ⟨h, rfl⟩)
  · next inp rest h => exact .inl ⟨inp, rest, h, rfl⟩
  · next h rest hs =>
    split
    · next hp => exact .inr (.inr (.inr (.inl ⟨h, rest, hs, hp, rfl⟩)))
    · next hp => exact .inr (.inr (.inl ⟨_, rest, hs, .inl ⟨⟨h, rfl⟩, hp⟩, rfl⟩))
  · next c src seed rest hs =>
    split
    · next hr => exact .inr (.inr (.inr (.inr ⟨c, src, seed, rest, hs, hr, rfl⟩)))
    · next hr =>
      exact .inr (.inr (.inl ⟨_, rest, hs, .inr ⟨c, src, seed, rfl, Bool.eq_false_iff.2 hr⟩, rfl⟩))

/-- A turn that is a clock cycle, the three ways together, or an operation taken. -/
theorem nextTurn_clock_or_op (s : State) :
    (∃ inp rest, nextTurn s = clockTurn s inp rest) ∨
    (∃ h rest, s.stim = .tick h :: rest ∧ s.ph = codeIdle ∧ nextTurn s = tickTurn h rest) ∨
    (∃ c src seed rest, s.stim = .command c src seed :: rest ∧ cmdReady s.ph c = true ∧
      nextTurn s = commandTurn c src seed rest) := by
  rcases nextTurn_cases s with ⟨i, r, -, h⟩ | ⟨-, h⟩ | ⟨x, r, -, -, h⟩ | h | h
  · exact .inl ⟨i, r, h⟩
  · exact .inl ⟨_, _, h⟩
  · exact .inl ⟨_, _, h⟩
  · exact .inr (.inl h)
  · exact .inr (.inr h)

/-- A code of format PHASE stands for the phase it holds. -/
theorem decode_phase (p : BitVec 4) : decode ⟨.phase, p⟩ = .ok (decodePhase p) := rfl

/-- The code of an operation-level tick stands for TICK. -/
theorem decode_strobe : decode ⟨.strobe, 1#4⟩ = .ok .tick := rfl

/-- A command word stands for the command it holds. -/
theorem decode_command (c : BitVec 3) : decode ⟨.cmd, c.setWidth 4⟩ = .ok (decodeCmd c) := by
  revert c; decide

/-- A clock cycle without `rst`: the phase's rule, then the latch (R140). -/
theorem step_clock {s : State} {inp : Inputs} {rest : List Stimulus} (hr : inp.rst = false)
    (h : nextTurn s = clockTurn s inp rest) :
    step s = andThen (exec (decodePhase s.ph) (present inp rest s))
      (fun t => .next (latchTick (present inp rest s) t)) := by
  have hp : presented s = present inp rest s := by rw [presented, h]; rfl
  unfold step
  rw [h, hp]
  simp [clockTurn, hr, decode_phase, endTurn]

/-- A clock cycle with `rst` (R156). -/
theorem step_rst {s : State} {inp : Inputs} {rest : List Stimulus} (hr : inp.rst = true)
    (h : nextTurn s = clockTurn s inp rest) : step s = .next (rstEdge (present inp rest s)) := by
  have hp : presented s = present inp rest s := by rw [presented, h]; rfl
  unfold step
  rw [h, hp]
  simp [clockTurn, hr]

/-- An operation-level tick. -/
theorem step_tick {s : State} {h : HookRun} {rest : List Stimulus} (ht : nextTurn s = tickTurn h rest) :
    step s = exec .tick (present { Inputs.quiet with hook := h } rest s) := by
  have hp : presented s = present { Inputs.quiet with hook := h } rest s := by rw [presented, ht]; rfl
  unfold step
  rw [ht, hp]
  simp [tickTurn, decode_strobe, endTurn]

/-- An operation-level command. -/
theorem step_command {s : State} {c : BitVec 3} {src seed : List Byte} {rest : List Stimulus}
    (hc : nextTurn s = commandTurn c src seed rest) :
    step s = exec (decodeCmd c)
      (present { Inputs.quiet with cmdValid := true, cmd := c, srcBuf := src, seedBuf := seed } rest s) := by
  have hp : presented s =
      present { Inputs.quiet with cmdValid := true, cmd := c, srcBuf := src, seedBuf := seed } rest s := by
    rw [presented, hc]; rfl
  unfold step
  rw [hc, hp]
  simp [commandTurn, decode_command, endTurn]

/-- The instruction of a phase code, as twelve cases and the reserved one. -/
theorem decodePhase_cases (p : BitVec 4) :
    p = codeIdle ∧ decodePhase p = .phIdle ∨ p = codeLatHi ∧ decodePhase p = .phLatHi ∨
    p = codeAddr0 ∧ decodePhase p = .phAddr0 ∨ p = codeAddr1 ∧ decodePhase p = .phAddr1 ∨
    p = codeAddr2 ∧ decodePhase p = .phAddr2 ∨ p = codeLatLo ∧ decodePhase p = .phLatLo ∨
    p = codeSyncReq ∧ decodePhase p = .phSyncReq ∨ p = codeSyncWait ∧ decodePhase p = .phSyncWait ∨
    p = codeClkLo ∧ decodePhase p = .phClkLo ∨ p = codeRed ∧ decodePhase p = .phRed ∨
    p = codeGrn ∧ decodePhase p = .phGrn ∨ p = codeClkHi ∧ decodePhase p = .phClkHi ∨
    decodePhase p = .phReserved (p.setWidth 2) := by
  revert p; decide

end Sys2Proof.Machine
end

