-- ==== Sys2Proof/Tests/Slice0.lean ====
section
/-! SUPPORT. Tests of the model and witnesses for the statements' hypotheses. Expected results are those of
spec/30_encoding.md's code tables and of spec/95_test_vectors.md (V1 to V8, P5, P6), or a hand calculation from
the rule named. -/

namespace Sys2Proof.Tests

open Sys2Proof Sys2Proof.Machine

/-! ## Helpers -/

/-- The next state of an outcome, if it is one. -/
def nextOf (o : Result) : Option State :=
  match o with
  | .next s => some s
  | .fault _ => none
  | .refused _ => none

/-- The fault of an outcome, if it is one. -/
def faultOf (o : Result) : Option Fault :=
  match o with
  | .next _ => none
  | .fault f => some f
  | .refused _ => none

/-- The refusal of an outcome, if it is one. -/
def refusalOf (o : Result) : Option Refusal :=
  match o with
  | .next _ => none
  | .fault _ => none
  | .refused r => some r

/-- COLS = 1, FCW = 2. -/
def one : Params := { cols := 1, fcw := 2, panelEnActive := true, tickPeriod := 39 }

/-- COLS = 2, FCW = 2, PANEL_EN active low. -/
def two : Params := { cols := 2, fcw := 2, panelEnActive := false, tickPeriod := 39 }

/-- The first `n` cells hold `v`. -/
def filled (n : Nat) (v : Byte) : Memory := (List.range n).map fun a => (a, v)

/-- An enabled, initialised block with COLS = 1 in IDLE at row `r`: residuals 100, pixel bytes 200, frame 3. -/
def demo (r : Row) : State :=
  { State.resetOf one with
    row := r, frame := 3, run := true, acc := filled 16 100, fb := filled 16 200
    pins := { Pins.reset with panelEn := true } }

/-- A buffer of 16 bytes `0, 1, ..., 15`, the operand size at COLS = 1. -/
def buf : List Byte := (List.range 16).map (BitVec.ofNat 8)

/-- The quiet ports with command `c` presented, both operands `buf`. -/
def cmdIn (c : BitVec 3) : Inputs :=
  { Inputs.quiet with cmdValid := true, cmd := c, srcBuf := buf, seedBuf := buf }

/-- The quiet ports with a Hook that issues `frames` and returns or not. -/
def hookIn (frames : List (List Byte)) (returns : Bool) : Inputs :=
  { Inputs.quiet with hook := { frames := frames, returns := returns } }

/-! ## Well-formedness: each check refuses an ill-formed term -/

theorem test_wf_params_no_columns : Params.wf { one with cols := 0 } = false := by decide
theorem test_wf_params_no_frame_bits : Params.wf { one with fcw := 0 } = false := by decide
theorem test_wf_params_good : one.wf = true ∧ two.wf = true ∧ Params.chosen.wf = true := by decide
theorem test_wf_code_strobe_two_bits : Code.wf ⟨.strobe, 0b10#4⟩ = false := by decide
theorem test_wf_code_cmd_four_bits : Code.wf ⟨.cmd, 0b1000#4⟩ = false := by decide
theorem test_wf_operand_short : operandExact one (List.replicate 15 0) = false := by decide
theorem test_wf_operand_long : operandExact one (List.replicate 17 0) = false := by decide
theorem test_wf_hook_bad_frame : HookRun.wf one { frames := [buf, [1]], returns := true } = false := by decide
theorem test_wf_tick_bad_hook : Instr.wf one (hookIn [[]] true) .tick = false := by decide
theorem test_wf_init_no_seeds : Instr.wf one { cmdIn 1 with seedBuf := [] } .init = false := by decide
theorem test_wf_setframe_no_source : Instr.wf one { cmdIn 4 with srcBuf := [] } .setframe = false := by decide
theorem test_wf_idle_bad_operand : Instr.wf one { cmdIn 4 with srcBuf := [] } .phIdle = false := by decide
theorem test_wf_sync_wait_bad_operand :
    Instr.wf one { cmdIn 4 with srcBuf := [] } .phSyncWait = false := by decide
theorem test_wf_stimulus_bad_tick : Stimulus.wf one (.tick { frames := [[]], returns := true }) = false := by
  decide
theorem test_wf_stimulus_bad_command : Stimulus.wf one (.command 4 [] buf) = false := by decide
theorem test_wf_stimulus_bad_cycle : Stimulus.wf one (.cycle { cmdIn 4 with seedBuf := [] }) = false := by
  decide
theorem test_wf_stimulus_quiet : Stimulus.wf one (.cycle Inputs.quiet) = true := by decide

/-! ## Decoding: the codes as R65, R68, R70 and R72 write them -/

theorem test_decode_tick : decode ⟨.strobe, 0b1#4⟩ = .ok .tick := rfl
theorem test_decode_nop : decode ⟨.cmd, 0b000#4⟩ = .ok .nop := rfl
theorem test_decode_init : decode ⟨.cmd, 0b001#4⟩ = .ok .init := rfl
theorem test_decode_enable : decode ⟨.cmd, 0b010#4⟩ = .ok .enable := rfl
theorem test_decode_disable : decode ⟨.cmd, 0b011#4⟩ = .ok .disable := rfl
theorem test_decode_setframe : decode ⟨.cmd, 0b100#4⟩ = .ok .setframe := rfl
theorem test_decode_reserved_commands :
    decode ⟨.cmd, 0b101#4⟩ = .ok .reservedCmd5 ∧ decode ⟨.cmd, 0b110#4⟩ = .ok .reservedCmd6 ∧
    decode ⟨.cmd, 0b111#4⟩ = .ok .reservedCmd7 := ⟨rfl, rfl, rfl⟩
theorem test_decode_idle : decode ⟨.phase, 0b0000#4⟩ = .ok .phIdle := rfl
theorem test_decode_lat_hi : decode ⟨.phase, 0b0001#4⟩ = .ok .phLatHi := rfl
theorem test_decode_addr0 : decode ⟨.phase, 0b0010#4⟩ = .ok .phAddr0 := rfl
theorem test_decode_addr1 : decode ⟨.phase, 0b0011#4⟩ = .ok .phAddr1 := rfl
theorem test_decode_addr2 : decode ⟨.phase, 0b0100#4⟩ = .ok .phAddr2 := rfl
theorem test_decode_lat_lo : decode ⟨.phase, 0b0101#4⟩ = .ok .phLatLo := rfl
theorem test_decode_sync_req : decode ⟨.phase, 0b0110#4⟩ = .ok .phSyncReq := rfl
theorem test_decode_sync_wait : decode ⟨.phase, 0b0111#4⟩ = .ok .phSyncWait := rfl
theorem test_decode_clk_lo : decode ⟨.phase, 0b1000#4⟩ = .ok .phClkLo := rfl
theorem test_decode_red : decode ⟨.phase, 0b1001#4⟩ = .ok .phRed := rfl
theorem test_decode_grn : decode ⟨.phase, 0b1010#4⟩ = .ok .phGrn := rfl
theorem test_decode_clk_hi : decode ⟨.phase, 0b1011#4⟩ = .ok .phClkHi := rfl
theorem test_decode_reserved_phases :
    decode ⟨.phase, 0b1100#4⟩ = .ok (.phReserved 0b00) ∧ decode ⟨.phase, 0b1101#4⟩ = .ok (.phReserved 0b01) ∧
    decode ⟨.phase, 0b1110#4⟩ = .ok (.phReserved 0b10) ∧ decode ⟨.phase, 0b1111#4⟩ = .ok (.phReserved 0b11) :=
  ⟨rfl, rfl, rfl, rfl⟩
theorem test_decode_no_strobe : decode ⟨.strobe, 0b0#4⟩ = .error .noStrobe := rfl
theorem test_decode_stray_strobe_bit : decode ⟨.strobe, 0b11#4⟩ = .error .strayBits := rfl
theorem test_decode_stray_command_bit : decode ⟨.cmd, 0b1001#4⟩ = .error .strayBits := rfl
theorem test_table_word_widths :
    decodeTableWord 1 1 = some .tick ∧ decodeTableWord 1 0 = none ∧ decodeTableWord 3 0b011 = some .disable ∧
    decodeTableWord 4 0b0110 = some .phSyncReq ∧ decodeTableWord 3 8 = none := by decide
theorem test_table_word_whole_bytes :
    decodeTableWord 8 0b100 = some .setframe ∧ decodeTableWord 8 0b1011 = some .phClkHi ∧
    decodeTableWord 8 16 = none := by decide

/-! ## Reset and the first instruction after it -/

/-- R31 on the registers, R14 to R19 on the pins. -/
theorem test_reset_registers :
    State.reset.row = 0 ∧ State.reset.run = false ∧ State.reset.ph = 0b0000#4 ∧
    State.reset.pins.panelEn = false ∧ State.reset.trace = [] := by decide
theorem test_reset_memory_canonical : State.reset.fb.wf ∧ State.reset.acc.wf := by decide
theorem test_first_instruction_enable :
    (nextOf (step (State.reset.withFetchWord 3 0b010))).map (fun t => (t.run, t.trace)) =
      some (true, [.out .panelEn true]) := by decide
theorem test_first_instruction_lat_hi :
    (nextOf (step (State.reset.withFetchWord 4 0b0001))).map (fun t => (t.ph, t.pins.lat)) =
      some (0b0010#4, true) := by decide

/-! ## The visit (V1) -/

/-- V1: each row is `a, p, s, bit, residual`. -/
theorem test_visit_v1 :
    (([(0, 0, 0, true, 0), (0, 1, 1, true, 1), (0, 255, 255, true, 255), (1, 255, 256, false, 0),
        (255, 0, 255, true, 255), (255, 1, 256, false, 0), (255, 255, 510, false, 254),
        (128, 127, 255, true, 255), (127, 128, 255, true, 255), (128, 128, 256, false, 0),
        (200, 100, 300, false, 44), (56, 200, 256, false, 0), (55, 200, 255, true, 255),
        (254, 2, 256, false, 0)] : List (Byte × Byte × BitVec 9 × Level × Byte)).all
      fun x => ditherSum x.1 x.2.1 == x.2.2.1 && emittedBit x.2.2.1 == x.2.2.2.1 &&
        carryOf x.2.2.1 == !x.2.2.2.1 && residualOf x.2.2.1 == x.2.2.2.2) = true := by decide

/-! ## The operations -/

/-- V3's row 7 with the visit 200 + 100 = 300 of V1: bit 0, residual 44, in row 0 and nowhere else. -/
theorem test_tick_renders_row_zero :
    (nextOf (exec .tick (demo 7))).map (fun t => (t.row, t.frame, t.trace, t.acc.take 3)) =
      some (0, 3, [.out .lat true, .out .a0 false, .out .a1 false, .out .a2 false, .out .lat false,
        .out .sclk false, .out .dr false, .out .dg false, .out .sclk true],
        [(0, 44), (1, 44), (2, 100)]) := by decide
/-- V3's row 6 and V4's wrap at FCW = 2. -/
theorem test_tick_sync_row :
    (nextOf (exec .tick (demo 6))).map (fun t => (t.row, t.frame, t.trace)) =
      some (7, 0, [.out .lat true, .out .a0 true, .out .a1 true, .out .a2 true, .out .lat false,
        .sync 3]) := by decide
/-- V6, first line; R120. -/
theorem test_nop_and_reserved :
    ([Instr.nop, .reservedCmd5, .reservedCmd6, .reservedCmd7].all
      fun i => nextOf (exec i (demo 5)) == some (demo 5)) = true := by decide
/-- V6: INIT places seed `a` at address `a` and zeroes FB, `row` and `frame`. -/
theorem test_init :
    (nextOf (exec .init { demo 5 with inp := cmdIn 1 })).map
        (fun t => (t.row, t.frame, t.fb == filled 16 0, t.acc.read 9, t.acc.read 15)) =
      some (0, 0, true, some 9, some 15) := by decide
/-- V6: ENABLE when already enabled emits again. -/
theorem test_enable : (nextOf (exec .enable (demo 5))).map (fun t => (t.run, t.trace)) =
    some (true, [.out .panelEn true]) := by decide
/-- V6's DISABLE: ten events, row 1, the accumulators unchanged. -/
theorem test_disable :
    (nextOf (exec .disable (demo 5))).map (fun t => (t.run, t.row, t.trace, t.fb == filled 16 0,
        t.acc == filled 16 100)) =
      some (false, 1, [.out .panelEn false, .out .lat true, .out .a0 true, .out .a1 false, .out .a2 false,
        .out .lat false, .out .sclk false, .out .dr true, .out .dg true, .out .sclk true], true, true) := by
  decide
/-- V6's SETFRAME: pixel (3, 0) is bytes 6 and 7 of the operand. -/
theorem test_setframe :
    (nextOf (exec .setframe { demo 5 with inp := cmdIn 4 })).map
        (fun t => (pixelAt one t.fb 3 0, pixelAt one t.fb 7 0, t.acc == filled 16 100)) =
      some (some ⟨6, 7⟩, some ⟨14, 15⟩, true) := by decide
/-- R61 and R41 at COLS = 2: pixel (1, 1) is bytes 6 and 7. -/
theorem test_pixel_two_columns :
    pixelAt two ((Memory.writeRun [] 0 buf)) 1 1 = some ⟨6, 7⟩ := by decide

/-! ## The phases (V8) -/

/-- V8 for the header and CLK_LO at row 5 = 0b101: successor and event. -/
theorem test_header_phases :
    ([(Instr.phLatHi, 0b0010#4, Event.out .lat true), (.phAddr0, 0b0011#4, .out .a0 true),
        (.phAddr1, 0b0100#4, .out .a1 false), (.phAddr2, 0b0101#4, .out .a2 true),
        (.phLatLo, 0b1000#4, .out .lat false), (.phClkLo, 0b1001#4, .out .sclk false)].all
      fun x => (nextOf (exec x.1 (demo 5))).map (fun t => (t.ph, t.trace)) == some (x.2.1, [x.2.2])) = true := by
  decide
/-- V8: LAT_LO of the sync row, SYNC_REQ. -/
theorem test_sync_phases :
    (nextOf (exec .phLatLo (demo 7))).map (·.ph) = some 0b0110#4 ∧
    (nextOf (exec .phSyncReq (demo 7))).map (fun t => (t.ph, t.trace)) = some (0b0111#4, [.sync 3]) := by
  decide
/-- P6, cycles 9 to 11: DISABLE waits in SYNC_WAIT, the Hook's SETFRAME does not, its return counts. -/
theorem test_sync_wait :
    (nextOf (exec .phSyncWait { demo 7 with inp := cmdIn 3 })).map (fun t => (t.ph, t.run)) =
      some (0b0111#4, true) ∧
    (nextOf (exec .phSyncWait { demo 7 with inp := { cmdIn 4 with syncAck := true } })).map
      (fun t => (t.ph, t.frame, t.fb.read 9)) = some (0b0000#4, 0, some 9) := by decide
/-- V8 and V1: RED and GRN visit their own cell only. -/
theorem test_lane_phases :
    (nextOf (exec .phRed (demo 0))).map (fun t => (t.ph, t.trace, t.acc.take 2)) =
      some (0b1010#4, [.out .dr false], [(0, 44), (1, 100)]) ∧
    (nextOf (exec .phGrn (demo 0))).map (fun t => (t.ph, t.trace, t.acc.take 2)) =
      some (0b1011#4, [.out .dg false], [(0, 100), (1, 44)]) := by decide
/-- V8: CLK_HI ends the tick after the last column, else goes to the next one. -/
theorem test_clk_hi :
    (nextOf (exec .phClkHi (demo 0))).map (fun t => (t.ph, t.col)) = some (0b0000#4, 0) ∧
    (nextOf (exec .phClkHi { demo 0 with params := two })).map (fun t => (t.ph, t.col)) =
      some (0b1000#4, 1) := by decide
/-- V8: DISABLE accepted in IDLE; a pending tick starts. -/
theorem test_idle :
    (nextOf (exec .phIdle { demo 5 with inp := cmdIn 3 })).map (fun t => (t.ph, t.row, t.run)) =
      some (0b0001#4, 1, false) ∧
    (nextOf (exec .phIdle { demo 7 with tickPend := true })).map (fun t => (t.ph, t.row)) =
      some (0b0001#4, 0) := by decide
/-- R72. -/
theorem test_reserved_phase : (nextOf (exec (.phReserved 0b11) { demo 5 with ph := 0b1111#4 })).map (·.ph) =
    some 0b0000#4 := by decide

/-! ## The latch (V7) and the ports -/

/-- One cycle from phase `ph` with latch `pend`, strobe `tick` and perhaps a command: the latch after it. -/
def latchAfter (run pend : Level) (ph : BitVec 4) (tick : Level) (c : Option (BitVec 3)) : Option Level :=
  (nextOf (step { demo 0 with
    run := run, tickPend := pend, ph := ph
    stim := [.cycle { (match c with | some c => cmdIn c | none => Inputs.quiet) with tick := tick }] })).map
    (·.tickPend)

/-- V7, row by row. -/
theorem test_latch_v7 :
    [latchAfter false false 0b0000 true none, latchAfter false false 0b0000 true (some 2),
      latchAfter true false 0b0000 true none, latchAfter true true 0b0000 false none,
      latchAfter true true 0b0000 true none, latchAfter true true 0b0000 false (some 4),
      latchAfter true true 0b0000 true (some 3), latchAfter true false 0b1001 true none,
      latchAfter true true 0b1001 true none, latchAfter true false 0b0111 true (some 4)] =
    [some false, some false, some true, some false, some true, some true, some false, some true, some true,
      some true] := by decide
/-- P6, cycle 10: DISABLE waits in front, held on the port, while the Hook's SETFRAME behind it is accepted. -/
theorem test_command_waits_for_hook :
    (nextOf (step { demo 7 with
      ph := 0b0111, stim := [.command 3 [] [], .cycle (cmdIn 4), .tick HookRun.idle] })).map
      (fun t => (t.ph, t.fb.read 9, t.inp.cmd, t.stim)) =
    some (0b0111, some 9, 4, [.command 3 [] [], .tick HookRun.idle]) := by decide
/-- P6, cycle 11: the Hook returns while DISABLE is held; the command is ready in the next step. -/
theorem test_command_held_while_hook_returns :
    (nextOf (step { demo 7 with
      ph := 0b0111, stim := [.command 3 [] [], .cycle { Inputs.quiet with syncAck := true }] })).map
      (fun t => (t.ph, t.frame, t.inp.cmdValid, t.inp.cmd, t.stim)) =
    some (0b0000, 0, true, 3, [.command 3 [] []]) := by decide
/-- V7's lost strobe sets the mark; a held one does not (R153). -/
theorem test_lost_mark :
    (nextOf (step { demo 0 with
      tickPend := true, ph := 0b1001, stim := [.cycle { Inputs.quiet with tick := true }] })).map (·.lost) =
      some true ∧
    (nextOf (step { demo 0 with
      tickPend := true, stim := [.cycle { Inputs.quiet with tick := true }] })).map (·.lost) = some false := by
  decide
/-- R19: an active-low panel reads 0 on the wire while enabled. -/
theorem test_panel_active_low : (outputs { demo 0 with params := two }).panelEn = false := by decide
/-- R63: the words of `Out(PANEL_EN, 1)` and `Out(A1, 0)`. -/
theorem test_event_words :
    Event.word (.out .panelEn true) = some 0b1111#4 ∧ Event.word (.out .a1 false) = some 0b0100#4 := by decide
/-- R55: a visit before INIT faults, naming the cell. -/
theorem test_uninitialised_visit :
    faultOf (exec .phRed State.reset) = some (.uninitialisedRead .acc 0) := by decide
/-- U1: 15 bytes are too few at COLS = 1. -/
theorem test_short_operand :
    refusalOf (exec .setframe { demo 0 with inp := { cmdIn 4 with srcBuf := buf.take 15 } }) =
      some (.shortOperand .srcBuf) := by decide

/-! ## Witnesses: states and operands that meet a statement's hypotheses, at the boundaries of its clauses -/

/-- The demo block with the stimuli `x`. -/
def given (r : Row) (x : List Stimulus) : State := { demo r with stim := x }

/-- The demo block in phase `p` with the stimuli `x`. -/
def inPhase (p : BitVec 4) (r : Row) (x : List Stimulus) : State := { demo r with ph := p, stim := x }

/-- The demo block with a tick pending and `n` quiet cycles to come, then one tick. -/
def pending (r : Row) (n : Nat) : State :=
  { given r ((List.replicate n Inputs.quiet).map .cycle ++ [.tick HookRun.idle]) with tickPend := true }

theorem demo_filled (v : Byte) : ∀ a, a < 16 → (Memory.read (filled 16 v) a).isSome := by
  intro a ha
  interval_cases a <;> rfl

theorem filled_inSpace (v : Byte) : Memory.inSpace 16 (filled 16 v) := by
  constructor
  · simp [Memory.wf, filled, List.range_succ, List.range_zero, List.pairwise_cons]
  · intro c hc
    simp only [filled, List.mem_map, List.mem_range] at hc
    obtain ⟨a, ha, rfl⟩ := hc
    exact ha

theorem demo_inv (r : Row) (x : List Stimulus) (pend : Level) :
    State.Inv { given r x with tickPend := pend } :=
  ⟨rfl, show 3 < 4 by omega, Nat.one_pos, .inl rfl, filled_inSpace 100, filled_inSpace 200, fun _ => rfl, rfl,
    by simp +decide [given, demo, State.resetOf, Pins.reset], fun h => by cases h⟩

theorem demo_initialised (r : Row) (x : List Stimulus) (pend : Level) :
    State.Initialised { given r x with tickPend := pend } := ⟨demo_filled 100, demo_filled 200⟩

theorem given_inv (r : Row) (x : List Stimulus) : (given r x).Inv := demo_inv r x false

theorem given_initialised (r : Row) (x : List Stimulus) : (given r x).Initialised := demo_initialised r x false

theorem witness_DecodedCodeIsItsEncoding : decode ⟨.phase, 0b1101#4⟩ = .ok (.phReserved 0b01) := rfl

theorem witness_ClockCycleRunsItsPhase :
    ((inPhase 0b0111 7 [.cycle (cmdIn 4)]).stim = .cycle (cmdIn 4) :: [] ∧ (cmdIn 4).rst = false ∧
      decode ⟨.phase, (inPhase 0b0111 7 [.cycle (cmdIn 4)]).ph⟩ = .ok .phSyncWait) ∧
    ((demo 7).stim = [] ∧ decode ⟨.phase, (demo 7).ph⟩ = .ok .phIdle) := by
  refine ⟨⟨rfl, rfl, rfl⟩, rfl, rfl⟩

theorem witness_TickStrobeRunsTick :
    (given 6 [.tick HookRun.idle]).stim = .tick HookRun.idle :: [] ∧
    (given 6 [.tick HookRun.idle]).ph = 0b0000#4 := ⟨rfl, rfl⟩

theorem witness_ReadyCommandRunsItsOperation :
    ((given 0 [.command 0b111 [] []]).stim = .command 0b111 [] [] :: [] ∧
      decode ⟨.cmd, (0b111#3).setWidth 4⟩ = .ok .reservedCmd7 ∧
      (given 0 [.command 0b111 [] []]).ph = 0b0000#4) ∧
    ((inPhase 0b0111 7 [.command 0b100 buf []]).stim = .command 0b100 buf [] :: [] ∧
      decode ⟨.cmd, (0b100#3).setWidth 4⟩ = .ok .setframe ∧
      (inPhase 0b0111 7 [.command 0b100 buf []]).ph = 0b0111#4) := ⟨⟨rfl, rfl, rfl⟩, rfl, rfl, rfl⟩

/-- A tick and a command that wait in SYNC_WAIT, the cycle behind an operation; and one with no cycle behind. -/
theorem witness_UnreadyOperationWaits :
    ((inPhase 0b0111 7 [.tick HookRun.idle]).ph ≠ 0b0000#4 ∧
      decode ⟨.phase, (inPhase 0b0111 7 [.tick HookRun.idle]).ph⟩ = .ok .phSyncWait) ∧
    ((inPhase 0b0111 7 [.command 0b011 [] [], .tick HookRun.idle, .cycle (cmdIn 4)]).stim =
        .command 0b011 [] [] :: ([.tick HookRun.idle] ++ .cycle (cmdIn 4) :: []) ∧
      (∀ y, .cycle y ∉ [Stimulus.tick HookRun.idle]) ∧ (cmdIn 4).rst = false ∧ Inputs.quiet.rst = false ∧
      ¬((0b0111#4) = 0b0111#4 ∧ 0b011#3 = 0b100#3)) := by
  refine ⟨⟨by decide, rfl⟩, rfl, fun y => by simp, rfl, rfl, by decide⟩

theorem witness_WaitingCommandRunsWhenTheHookReturns :
    (inPhase 0b0111 7 [.command 0b011 [] [], .cycle { Inputs.quiet with syncAck := true }]).ph = 0b0111#4 ∧
    0b011#3 ≠ 0b100#3 ∧ decode ⟨.cmd, (0b011#3).setWidth 4⟩ = .ok .disable :=
  ⟨rfl, by decide, rfl⟩

/-- An operation taken, and one that waits. -/
theorem witness_OperationsAreTakenInOrder :
    (nextOf (step (given 6 [.tick HookRun.idle]))).isSome ∧
    (nextOf (step (inPhase 0b0001 6 [.tick HookRun.idle]))).isSome := by decide

theorem witness_RstCycleResetsEveryRegister :
    (inPhase 0b1001 2 [Stimulus.rstCycle]).stim = .cycle { Inputs.quiet with rst := true } :: [] ∧
    Inputs.rst { Inputs.quiet with rst := true } = true ∧
    (inPhase 0b0111 7 [.command 0b011 [] [], Stimulus.rstCycle]).RstTurn := ⟨rfl, rfl, rfl, rfl⟩

theorem witness_ResetSatisfiesTheInvariant : Params.wf { one with cols := 1, fcw := 1 } = true := by decide

/-- Residuals `100 + 200 k` modulo 256 are those of V2's cell with `a0 = 100`, `p = 200`. -/
theorem witness_ResidualsFollowTheClosedForm :
    BitVec.ofNat 8 (100 + 200 * 0) = 100#8 ∧
    ∀ k, BitVec.ofNat 8 (100 + 200 * (k + 1)) =
      residualOf (ditherSum (BitVec.ofNat 8 (100 + 200 * k)) 200#8) := by
  refine ⟨rfl, fun k => BitVec.eq_of_toNat_eq ?_⟩
  simp only [residualOf, ditherSum, BitVec.toNat_setWidth, BitVec.toNat_add, BitVec.toNat_ofNat]
  omega

/-- The same cell, with `p = 0`: it stays at 77 (V2's last line). -/
theorem witness_EveryPeriodOfVisitsHoldsItsIntensity :
    (∀ _k : Nat, 77#8 = residualOf (ditherSum 77#8 0#8)) ∧
    ∀ k, BitVec.ofNat 8 (100 + 200 * (k + 1)) =
      residualOf (ditherSum (BitVec.ofNat 8 (100 + 200 * k)) 200#8) :=
  ⟨fun _ => rfl, witness_ResidualsFollowTheClosedForm.2⟩

/-- An operand of exactly the port's size, and a longer one. -/
theorem witness_InitZeroesTheFrameAndSeedsTheAccumulators :
    16 * one.cols ≤ (cmdIn 1).seedBuf.length ∧ 16 * one.cols ≤ (buf ++ [1]).length := by decide

theorem witness_SetframeReplacesTheFrame :
    16 * one.cols ≤ (cmdIn 4).srcBuf.length ∧ 16 * one.cols ≤ (buf ++ [1]).length := by decide

/-- The last pixel of the buffer. -/
theorem witness_SetframePlacesPixelsRowMajor :
    16 * one.cols ≤ buf.length ∧ 7 < 8 ∧ 0 < one.cols ∧ buf[2 * (7 * one.cols + 0)]? = some 14#8 ∧
    buf[2 * (7 * one.cols + 0) + 1]? = some 15#8 := by decide

theorem witness_DisableStopsTicksAndFlushes :
    1 ≤ (demo 5).params.cols ∧ ∀ c ch, c < (demo 5).params.cols → ch < 2 →
      ((demo 5).acc.read (cellAddr (demo 5).params 1 c ch)).isSome := by
  refine ⟨le_rfl, fun c ch h1 h2 => demo_filled 100 _ ?_⟩
  have : c < 1 := h1
  simp only [cellAddr, demo, State.resetOf, one]
  omega

theorem witness_ShortOperandsAreRefused :
    (buf.take 15).length < 16 * one.cols ∧ (cmdIn 1).cmdValid = true ∧ (cmdIn 1).cmd = 0b001#3 ∧
    (cmdIn 4).cmd = 0b100#3 ∧ (demo 6).run = true ∧ (demo 6).row = 6 ∧
    ∃ b ∈ (hookIn [buf, buf.take 15] true).hook.frames, b.length < 16 * one.cols := by decide

theorem witness_TickWithoutRunHasNoEffect : State.reset.run = false := rfl

/-- Before row 0 and before row 6, the two ends of the rendered rows. -/
theorem witness_RenderTickShiftsItsRow : ∀ r ∈ [(7 : Row), 5], (demo r).run = true ∧ (demo r).row ≠ 6 ∧
    1 ≤ (demo r).params.cols ∧
    RowHolds (demo r).params (demo r).acc (demo r).fb ((demo r).row + 1).toNat (fun _ _ => 100)
      (fun _ _ => 200) := by
  intro r hr
  simp only [List.mem_cons, List.not_mem_nil, or_false] at hr
  have hrow : ∀ c ch : Nat, c < 1 → ch < 2 → c = 0 ∧ (ch = 0 ∨ ch = 1) := by omega
  rcases hr with rfl | rfl <;> refine ⟨rfl, by decide, le_rfl, fun c ch h1 h2 => ?_⟩ <;>
    obtain ⟨rfl, rfl | rfl⟩ := hrow c ch h1 h2 <;> exact ⟨rfl, rfl⟩

/-- A Hook that issues nothing, and one that issues two frames. -/
theorem witness_SyncTickCallsTheHookAndCounts :
    (demo 6).run = true ∧ (demo 6).row = 6 ∧ (hookIn [] true).hook.returns = true ∧
    (∀ b ∈ (hookIn [] true).hook.frames, 16 * one.cols ≤ b.length) ∧
    (hookIn [buf, buf] true).hook.returns = true ∧
    (∀ b ∈ (hookIn [buf, buf] true).hook.frames, 16 * one.cols ≤ b.length) := by decide

theorem witness_UnansweredHookLeavesTheTickSuspended :
    (demo 6).run = true ∧ (demo 6).row = 6 ∧ (hookIn [buf] false).hook.returns = false ∧
    ∀ b ∈ (hookIn [buf] false).hook.frames, 16 * one.cols ≤ b.length := by decide

theorem witness_SuspendedBlockTakesNoTick :
    (inPhase 0b0111 7 (ticks 3 HookRun.idle)).ph = 0b0111#4 ∧
    ∀ x ∈ (inPhase 0b0111 7 (ticks 3 HookRun.idle)).stim, ∃ h, x = .tick h :=
  ⟨rfl, fun _ hx => ⟨_, List.eq_of_mem_replicate hx⟩⟩

/-- Two framebuffers that differ in row 7, in its first cell. -/
theorem witness_RowSevenOfTheFrameIsNeverRead :
    (demo 6).inp.hook.frames = [] ∧
    (∀ a, a < 14 * (demo 6).params.cols → (demo 6).fb.read a = ((demo 6).fb.write 14 7).read a) ∧
    (demo 6).fb.read 14 ≠ ((demo 6).fb.write 14 7).read 14 := by
  refine ⟨rfl, fun a ha => ?_, by decide⟩
  have ha : a < 14 := ha
  interval_cases a <;> rfl

theorem witness_LatLoBranchesOnTheSyncRow : (demo 7).row = 7 ∧ (demo 6).row ≠ 7 ∧ (demo 0).row ≠ 7 := by decide

theorem witness_SyncReqCallsTheHook :
    (inPhase 0b0110 7 []).ph = 0b0110#4 ∧
    (nextOf (exec .phSyncReq (inPhase 0b0110 7 []))).isSome := by decide

/-- DISABLE presented, nothing presented, SETFRAME presented; each with and without the Hook's return. -/
theorem witness_SyncWaitWaitsForTheHook :
    ¬((cmdIn 3).cmdValid = true ∧ (cmdIn 3).cmd = 0b100#3) ∧ (cmdIn 3).syncAck = false ∧
    ¬(Inputs.cmdValid { Inputs.quiet with syncAck := true } = true) ∧
    (cmdIn 4).cmdValid = true ∧ (cmdIn 4).cmd = 0b100#3 ∧ 16 * one.cols ≤ (cmdIn 4).srcBuf.length := by decide

theorem witness_LanePhasesVisitTheirCell :
    (demo 7).col < (demo 7).params.cols ∧ (demo 7).acc.read (cellAddr one 7 0 0) = some 100#8 ∧
    (demo 7).fb.read (cellAddr one 7 0 0) = some 200#8 ∧ (demo 7).acc.read (cellAddr one 7 0 1) = some 100#8 ∧
    (demo 7).fb.read (cellAddr one 7 0 1) = some 200#8 := by decide

/-- Nothing written; ACC written and FB not; a tick of an enabled block that has seen no INIT. -/
theorem witness_UninitialisedVisitFaults :
    State.reset.col < State.reset.params.cols ∧ State.reset.acc.read (cellAddr Params.chosen 0 0 0) = none ∧
    State.reset.acc.read (cellAddr Params.chosen 0 0 1) = none ∧
    (Memory.read (demo 0).acc (cellAddr one 0 0 0)).isSome ∧
    (Memory.read (demo 0).acc (cellAddr one 0 0 1)).isSome ∧
    State.fb { demo 0 with fb := [] } = [] ∧ State.run { State.reset with run := true } = true ∧
    State.reset.row ≠ 6 ∧ 1 ≤ State.reset.params.cols ∧
    State.reset.acc.read (cellAddr Params.chosen (State.reset.row + 1).toNat 0 0) = none := by decide

/-- The last column, and the first of two. -/
theorem witness_ClkHiEndsTheColumn :
    (demo 0).col < one.cols ∧ (demo 0).col = one.cols - 1 ∧ (demo 0).col < two.cols ∧
    (demo 0).col ≠ two.cols - 1 ∧ 1 < two.cols ∧ 1 = two.cols - 1 := by decide

theorem witness_IdleAcceptsACommandOrStartsATick :
    (∀ c, (cmdIn c).cmdValid = true ∧ (cmdIn c).cmd = c) ∧ Inputs.quiet.cmdValid = false ∧
    (pending 7 0).tickPend = true ∧ (pending 7 0).run = true ∧
    ¬((demo 0).tickPend = true ∧ (demo 0).run = true) := by decide

/-- A strobe that is held, a start, and a DISABLE that discards. -/
theorem witness_PendingTickLatchUpdate :
    (nextOf (step (given 0 [.cycle { Inputs.quiet with tick := true }]))).map (·.tickPend) = some true ∧
    (nextOf (step (pending 0 1))).map (·.tickPend) = some false ∧
    (nextOf (step { pending 0 0 with stim := [.cycle (cmdIn 3)] })).map (·.tickPend) = some false ∧
    (cmdIn 3).rst = false := by decide

theorem witness_OutputPortsFollowTheState :
    (demo 0).pins.panelEn = true ∧ State.reset.pins.panelEn = false := by decide

theorem witness_EveryStepKeepsTheInvariant :
    (pending 7 1).Inv ∧ (nextOf (step (pending 7 1))).isSome :=
  ⟨demo_inv 7 _ true, by decide⟩

theorem witness_InitialisedBlockNeverStops :
    (given 6 (ticks 8 HookRun.idle)).Inv ∧ (given 6 (ticks 8 HookRun.idle)).Initialised ∧
    (given 6 (ticks 8 HookRun.idle)).StimWf :=
  ⟨given_inv 6 _, given_initialised 6 _, fun _ hx => by rw [List.eq_of_mem_replicate hx]; rfl⟩

theorem witness_CellsStayDefined :
    ¬(given 6 [.tick HookRun.idle]).RstTurn ∧ (nextOf (step (given 6 [.tick HookRun.idle]))).isSome ∧
    ((given 6 [.tick HookRun.idle]).fb.read 15).isSome :=
  ⟨by unfold State.RstTurn; decide, by decide, by decide⟩

theorem witness_OnlyTheOwnersWriteEachRegister : (nextOf (exec .disable (demo 5))).isSome := by decide

theorem witness_PinsFollowTheTrace :
    ¬(inPhase 0b0001 6 []).RstTurn ∧ (nextOf (step (inPhase 0b0001 6 []))).isSome ∧
    (nextTurn (inPhase 0b0001 6 [])).clocked = true :=
  ⟨by unfold State.RstTurn; decide, by decide, by decide⟩

/-- Ten ticks from row 6, and none. -/
theorem witness_TicksCountRowsAndFrames : ∀ n ∈ [0, 10],
    (given 6 (ticks n HookRun.idle ++ [])).Inv ∧ (given 6 (ticks n HookRun.idle ++ [])).Initialised ∧
    (given 6 (ticks n HookRun.idle ++ [])).ph = 0b0000#4 ∧
    (given 6 (ticks n HookRun.idle ++ [])).run = true ∧ HookRun.idle.returns = true ∧
    HookRun.idle.wf one = true :=
  fun _ _ => ⟨given_inv 6 _, given_initialised 6 _, rfl, rfl, rfl, rfl⟩

theorem witness_SweepsVisitEveryRenderedCell :
    (given 3 (ticks (8 * 2) HookRun.idle ++ [])).Inv ∧
    (given 3 (ticks (8 * 2) HookRun.idle ++ [])).Initialised ∧ (given 3 []).ph = 0b0000#4 ∧
    (given 3 []).run = true ∧ (given 3 []).acc.read (cellAddr one 6 0 1) = some 100#8 ∧
    (given 3 []).fb.read (cellAddr one 6 0 1) = some 200#8 :=
  ⟨given_inv 3 _, given_initialised 3 _, rfl, rfl, rfl, rfl⟩

theorem witness_RenderCyclesRefineTick :
    (pending 5 10).Inv ∧ (pending 5 10).Initialised ∧ (pending 5 10).ph = 0b0000#4 ∧ (pending 5 10).run = true ∧
    (pending 5 10).tickPend = true ∧ (pending 5 10).row ≠ 6 ∧
    (List.replicate 10 Inputs.quiet).length = 6 + 4 * (pending 5 10).params.cols ∧
    (∀ x ∈ List.replicate 10 Inputs.quiet, x.rst = false) ∧
    (∀ x ∈ (List.replicate 10 Inputs.quiet).head?, x.cmdValid = false) :=
  ⟨demo_inv 5 _ true, demo_initialised 5 _ true, rfl, rfl, rfl, by decide, rfl, by decide, by decide⟩

/-- Two cycles of waiting, one of them with a SETFRAME of the Hook, then its return. -/
theorem witness_SyncCyclesRefineTick :
    (pending 6 10).Inv ∧ (pending 6 10).row = 6 ∧ (List.replicate 7 Inputs.quiet).length = 7 ∧
    (∀ x ∈ List.replicate 7 Inputs.quiet, x.rst = false) ∧
    (∀ x ∈ (List.replicate 7 Inputs.quiet).head?, x.cmdValid = false) ∧
    (∀ x ∈ [Inputs.quiet, cmdIn 4], x.rst = false ∧ x.syncAck = false) ∧
    (∀ x ∈ [Inputs.quiet, cmdIn 4] ++ [{ Inputs.quiet with syncAck := true }],
      x.cmdValid = true → 16 * one.cols ≤ x.srcBuf.length) ∧
    (pending 6 10).run = true ∧ (pending 6 10).tickPend = true :=
  ⟨demo_inv 6 _ true, rfl, rfl, by decide, by decide, by decide, by decide, rfl, rfl⟩

theorem witness_DisableCyclesRefineDisable :
    (given 5 ((cmdIn 3 :: List.replicate 9 Inputs.quiet).map .cycle ++ [])).Inv ∧
    (given 5 ((cmdIn 3 :: List.replicate 9 Inputs.quiet).map .cycle ++ [])).Initialised ∧
    (cmdIn 3).rst = false ∧ (cmdIn 3).cmdValid = true ∧ (cmdIn 3).cmd = 0b011#3 ∧
    (List.replicate 9 Inputs.quiet).length = 5 + 4 * one.cols ∧
    ∀ x ∈ List.replicate 9 Inputs.quiet, x.rst = false :=
  ⟨given_inv 5 _, given_initialised 5 _, rfl, rfl, rfl, rfl, by decide⟩

/-- The first cycle and the last one. -/
theorem witness_RenderTickIsBusyForItsCycles :
    (pending 5 10).Inv ∧ (pending 5 10).Initialised ∧ (pending 5 10).row ≠ 6 ∧
    (List.replicate 10 Inputs.quiet).length = 6 + 4 * one.cols ∧
    (pending 5 10).stim = (List.replicate 10 Inputs.quiet).map .cycle ++ [.tick HookRun.idle] ∧
    0 < 6 + 4 * one.cols ∧ 9 < 6 + 4 * one.cols :=
  ⟨demo_inv 5 _ true, demo_initialised 5 _ true, by decide, rfl, rfl, by decide, by decide⟩

end Sys2Proof.Tests
end

-- ==== Proofs of the family 10_state ====
section
/-! PROOFS of the family 10_state: the state after `rst`, the invariant, the write-rights of R33, the pins and the
latch. The first parts say once what a step can do and what each state operation does to the invariant; the
obligations of the family are settled at the end. -/

namespace Sys2Proof.Machine

/-! ## What a step can do -/

/-- The four forms of a step that answers `t`: a clock cycle with `rst`, a clock cycle that runs its phase, an
operation-level tick, an operation-level command. -/
inductive StepForm (s t : State) : Prop
  | rst (inp : Inputs) (rest : List Stimulus) (turn : nextTurn s = clockTurn s inp rest)
      (level : inp.rst = true) (next : t = rstEdge (present inp rest s))
  | clock (inp : Inputs) (rest : List Stimulus) (u : State) (turn : nextTurn s = clockTurn s inp rest)
      (level : inp.rst = false) (phase : exec (decodePhase s.ph) (present inp rest s) = .next u)
      (next : t = latchTick (present inp rest s) u)
  | tick (hook : HookRun) (rest : List Stimulus) (turn : nextTurn s = tickTurn hook rest) (idle : s.ph = codeIdle)
      (run : exec .tick (present { Inputs.quiet with hook := hook } rest s) = .next t)
  | command (c : BitVec 3) (src seed : List Byte) (rest : List Stimulus)
      (turn : nextTurn s = commandTurn c src seed rest) (ready : cmdReady s.ph c = true)
      (run : exec (decodeCmd c) (present
        { Inputs.quiet with cmdValid := true, cmd := c, srcBuf := src, seedBuf := seed } rest s) = .next t)

theorem step_form {s t : State} (h : step s = .next t) : StepForm s t := by
  rcases nextTurn_clock_or_op s with
    ⟨inp, rest, ht⟩ | ⟨hook, rest, -, hi, ht⟩ | ⟨c, src, seed, rest, -, hr, ht⟩
  · cases hr : inp.rst with
    | true =>
      rw [step_rst hr ht] at h
      cases h
      exact .rst inp rest ht hr rfl
    | false =>
      rw [step_clock hr ht] at h
      obtain ⟨u, hu, h⟩ := andThen_eq_next.1 h
      cases h
      exact .clock inp rest u ht hr hu rfl
  · rw [step_tick ht] at h
    exact .tick hook rest ht hi h
  · rw [step_command ht] at h
    exact .command c src seed rest ht hr h

/-- A `rst` turn is a clock cycle whose ports hold `rst` at 1, and its step is the `rst` edge (R156). -/
theorem step_rstTurn {s : State} (h : s.RstTurn) : step s = .next (rstEdge (presented s)) := by
  obtain ⟨hclock, hlevel⟩ := h
  simp [step, hclock, hlevel]

/-- No phase code stands for an operation-level instruction, so a clock cycle emits at most one event. -/
theorem decodePhase_ne_operation (p : BitVec 4) : decodePhase p ≠ .tick ∧ decodePhase p ≠ .disable := by
  revert p; decide

/-- A step other than `rst` is one effect on the presented state, followed in a clock cycle by the latch update,
which no memory, pin or event sees. -/
theorem step_effect {s t : State} (hr : ¬s.RstTurn) (h : step s = .next t) :
    ∃ (inp : Inputs) (rest : List Stimulus) (u : State) (es : List Event), Eff (present inp rest s) es u ∧
      t.trace = u.trace ∧ t.pins = u.pins ∧ t.fb = u.fb ∧ t.acc = u.acc ∧
      ((nextTurn s).clocked = true → es.length ≤ 1) := by
  cases step_form h with
  | rst inp rest turn level next => exact absurd ⟨by rw [turn]; rfl, by rw [turn]; exact level⟩ hr
  | clock inp rest u turn level phase next =>
    subst next
    obtain ⟨es, e, hlen⟩ := exec_effect phase
    obtain ⟨htick, hdis⟩ := decodePhase_ne_operation s.ph
    exact ⟨inp, rest, u, es, e, rfl, rfl, rfl, rfl, fun _ => hlen htick hdis⟩
  | tick hook rest turn idle run =>
    obtain ⟨es, e, -⟩ := exec_effect run
    exact ⟨_, rest, t, es, e, rfl, rfl, rfl, rfl, by simp [turn, tickTurn]⟩
  | command c src seed rest turn ready run =>
    obtain ⟨es, e, -⟩ := exec_effect run
    exact ⟨_, rest, t, es, e, rfl, rfl, rfl, rfl, by simp [turn, commandTurn]⟩

/-! ## Readiness and the latch, as statements -/

/-- R125's readiness. -/
theorem cmdReady_iff {ph : BitVec 4} {c : BitVec 3} :
    cmdReady ph c = true ↔ ph = codeIdle ∨ ph = codeSyncWait ∧ c = cmdSetframe := by
  simp [cmdReady]

/-- A cycle accepts the command on the port exactly when it is presented and ready (R140). -/
theorem acceptIn_iff {ph : BitVec 4} {inp : Inputs} :
    acceptIn ph inp = true ↔
      inp.cmdValid = true ∧ (ph = codeIdle ∨ ph = codeSyncWait ∧ inp.cmd = cmdSetframe) := by
  simp [acceptIn, cmdReady_iff]

/-- A cycle starts the pending tick in IDLE, while enabled and without a command (R140). -/
theorem startIn_iff {ph : BitVec 4} {s : State} :
    startIn ph s = true ↔
      ph = codeIdle ∧ ¬acceptIn ph s.inp = true ∧ s.tickPend = true ∧ s.run = true := by
  simp [startIn, and_assoc]

theorem acceptsDisable_iff {s : State} :
    acceptsDisable s = true ↔ acceptIn s.ph s.inp = true ∧ s.inp.cmd = cmdDisable := by
  simp [acceptsDisable]

/-- The latch is 1 after a cycle that accepts no DISABLE, if a strobe arrives under `run = 1` or a pending tick is
not started (R153). -/
theorem nextPend_iff {s : State} :
    nextPend s = true ↔ ¬acceptsDisable s = true ∧
      (s.inp.tick = true ∧ s.run = true ∨ ¬startIn s.ph s = true ∧ s.tickPend = true) := by
  unfold nextPend
  split
  · simp [*]
  split
  · simp_all
  split <;> simp_all

/-- A tick is lost when a strobe finds one pending that neither starts nor is discarded (R153; log 9). -/
theorem losesTick_iff {s : State} :
    losesTick s = true ↔ s.inp.tick = true ∧ s.run = true ∧ s.tickPend = true ∧ ¬startIn s.ph s = true ∧
      ¬acceptsDisable s = true := by
  simp [losesTick, and_assoc]

/-! ## Which instruction writes which register (R33) -/

def rowWriters : List Instr := [.tick, .init, .disable, .phIdle]

def frameWriters : List Instr := [.tick, .init, .phSyncWait, .phIdle]

def runWriters : List Instr := [.enable, .disable, .phIdle]

def accWriters : List Instr := [.tick, .init, .disable, .phRed, .phGrn, .phIdle]

def fbWriters : List Instr := [.tick, .init, .disable, .setframe, .phIdle, .phSyncWait]

def colWriters : List Instr := [.phLatLo, .phClkHi]

/-- The writers of the pins other than PANEL_EN, which goes with `run`. -/
def pinWriters : List Instr :=
  [.tick, .disable, .phLatHi, .phAddr0, .phAddr1, .phAddr2, .phLatLo, .phClkLo, .phRed, .phGrn, .phClkHi]

/-- R33's write-rights: an instruction that is no writer of a register leaves it alone. -/
structure WriteRights (i : Instr) (s t : State) : Prop where
  row : i ∉ rowWriters → t.row = s.row
  frame : i ∉ frameWriters → t.frame = s.frame
  run : i ∉ runWriters → t.run = s.run
  panel : i ∉ runWriters → t.pins.panelEn = s.pins.panelEn
  acc : i ∉ accWriters → t.acc = s.acc
  fb : i ∉ fbWriters → t.fb = s.fb
  pend : i ≠ .disable → t.tickPend = s.tickPend
  col : i ∉ colWriters → t.col = s.col
  pins : i ∉ pinWriters → ∀ p, p ≠ .panelEn → t.pins.get p = s.pins.get p

section
variable {i : Instr} {s u t : State}

theorem WriteRights.refl (i : Instr) (s : State) : WriteRights i s s :=
  ⟨fun _ => rfl, fun _ => rfl, fun _ => rfl, fun _ => rfl, fun _ => rfl, fun _ => rfl, fun _ => rfl,
    fun _ => rfl, fun _ _ _ => rfl⟩

theorem WriteRights.trans (h : WriteRights i s u) (k : WriteRights i u t) : WriteRights i s t where
  row n := (k.row n).trans (h.row n)
  frame n := (k.frame n).trans (h.frame n)
  run n := (k.run n).trans (h.run n)
  panel n := (k.panel n).trans (h.panel n)
  acc n := (k.acc n).trans (h.acc n)
  fb n := (k.fb n).trans (h.fb n)
  pend n := (k.pend n).trans (h.pend n)
  col n := (k.col n).trans (h.col n)
  pins n p hp := (k.pins n p hp).trans (h.pins n p hp)

/-- The phase register is no line of the table. -/
theorem writeRights_setPh (q : BitVec 4) : WriteRights i s (setPh q s) :=
  { WriteRights.refl i s with }

theorem writeRights_emitSync : WriteRights i s (emitSync s) :=
  { WriteRights.refl i s with }

theorem writeRights_emit {p : Pin} {v : Level} (hp : p ≠ .panelEn) (hi : i ∈ pinWriters) :
    WriteRights i s (emit p v s) :=
  { WriteRights.refl i s with
    panel := fun _ => by simpa [Pins.get, hp] using Pins.get_set s.pins p .panelEn v
    pins := fun n => absurd hi n }

theorem writeRights_setRun {v : Level} (hi : i ∈ runWriters) : WriteRights i s (setRun v s) :=
  { WriteRights.refl i s with run := fun n => absurd hi n }

theorem writeRights_emitPanel {v : Level} (hi : i ∈ runWriters) : WriteRights i s (emit .panelEn v s) :=
  { WriteRights.refl i s with
    panel := fun n => absurd hi n
    pins := fun _ p hp => by simp [Pins.get_set, hp.symm] }

theorem writeRights_setRow {r : Row} (hi : i ∈ rowWriters) : WriteRights i s (setRow r s) :=
  { WriteRights.refl i s with row := fun n => absurd hi n }

theorem writeRights_takeTick (hi : i ∈ rowWriters) : WriteRights i s (takeTick s) :=
  { WriteRights.refl i s with row := fun n => absurd hi n }

theorem writeRights_bumpFrame (hi : i ∈ frameWriters) : WriteRights i s (bumpFrame s) :=
  { WriteRights.refl i s with frame := fun n => absurd hi n }

theorem writeRights_storeAcc {a : Nat} {v : Byte} (hi : i ∈ accWriters) : WriteRights i s (storeAcc a v s) :=
  { WriteRights.refl i s with acc := fun n => absurd hi n }

theorem writeRights_fillFb {bs : List Byte} (hi : i ∈ fbWriters) : WriteRights i s (fillFb bs s) :=
  { WriteRights.refl i s with fb := fun n => absurd hi n }

theorem writeRights_clearCol (hi : i ∈ colWriters) : WriteRights i s (clearCol s) :=
  { WriteRights.refl i s with col := fun n => absurd hi n }

theorem writeRights_advanceCol (hi : i ∈ colWriters) : WriteRights i s (advanceCol s) :=
  { WriteRights.refl i s with col := fun n => absurd hi n }

theorem writeRights_assertPanel (hi : i ∈ runWriters) : WriteRights i s (assertPanel s) :=
  (writeRights_setRun hi).trans (writeRights_emitPanel hi)

theorem writeRights_acceptDisable (hrun : i ∈ runWriters) (hfb : i ∈ fbWriters) (hrow : i ∈ rowWriters) :
    WriteRights i s (acceptDisable s) :=
  ((((writeRights_setRun hrun).trans (writeRights_emitPanel hrun)).trans (writeRights_fillFb hfb)).trans
    (writeRights_setRow hrow)).trans (writeRights_setPh _)

theorem writeRights_loadInit (hrow : i ∈ rowWriters) (hframe : i ∈ frameWriters) (hacc : i ∈ accWriters)
    (hfb : i ∈ fbWriters) (h : loadInit s = .next t) : WriteRights i s t := by
  obtain ⟨-, rfl⟩ := loadInit_eq_next.1 h
  exact { WriteRights.refl i s with
    row := fun n => absurd hrow n, frame := fun n => absurd hframe n, acc := fun n => absurd hacc n
    fb := fun n => absurd hfb n }

theorem writeRights_loadFrame {buf : List Byte} (hi : i ∈ fbWriters) (h : loadFrame buf s = .next t) :
    WriteRights i s t := by
  obtain ⟨-, rfl⟩ := loadFrame_eq_next.1 h
  exact writeRights_fillFb hi

theorem writeRights_ditherTo {p : Pin} {c ch : Nat} (hp : p ≠ .panelEn) (hacc : i ∈ accWriters)
    (hpin : i ∈ pinWriters) (h : ditherTo p c ch s = .next t) : WriteRights i s t := by
  obtain ⟨-, _, _, -, -, rfl⟩ := ditherTo_eq_next.1 h
  exact (writeRights_storeAcc hacc).trans (writeRights_emit hp hpin)

/-- TICK writes what the taken tick writes: not `run`, PANEL_EN, the latch or the column counter. -/
theorem writeRights_tickBody (h : tickBody s = .next t) : WriteRights .tick s t := by
  obtain ⟨-, -, hrun, hpend, hcol, -, hpanel, -⟩ := tickBody_effect h
  exact
    { row := fun n => absurd (by decide) n
      frame := fun n => absurd (by decide) n
      run := fun _ => hrun
      panel := fun _ => hpanel
      acc := fun n => absurd (by decide) n
      fb := fun n => absurd (by decide) n
      pend := fun _ => hpend
      col := fun _ => hcol
      pins := fun n => absurd (by decide) n }

/-- DISABLE's flush tick is row 1's, no sync tick, and so it leaves the frame counter alone (R123). -/
theorem writeRights_execDisable (h : execDisable s = .next t) : WriteRights .disable s t := by
  obtain ⟨-, -, -, -, hcol, -, -, ⟨h7, -⟩ | ⟨-, -, hframe⟩⟩ := tickBody_effect h
  · exact absurd h7 (by simp)
  · exact
      { row := fun n => absurd (by decide) n
        frame := fun _ => hframe
        run := fun n => absurd (by decide) n
        panel := fun n => absurd (by decide) n
        acc := fun n => absurd (by decide) n
        fb := fun n => absurd (by decide) n
        pend := fun n => absurd rfl n
        col := fun _ => hcol
        pins := fun n => absurd (by decide) n }

theorem writeRights_execCmd {c : BitVec 3} (h : execCmd c s = .next t) : WriteRights .phIdle s t := by
  unfold execCmd at h
  split at h
  · exact writeRights_loadInit (by decide) (by decide) (by decide) (by decide) h
  split at h
  · cases h; exact writeRights_assertPanel (by decide)
  split at h
  · exact writeRights_loadFrame (by decide) h
  split at h
  · cases h; exact writeRights_acceptDisable (by decide) (by decide) (by decide)
  · cases h; exact .refl _ _

/-- Every instruction keeps to R33's table. -/
theorem exec_writeRights (h : exec i s = .next t) : WriteRights i s t := by
  cases i with
  | tick =>
    simp only [exec, execTick] at h
    split at h
    · exact writeRights_tickBody h
    · cases h; exact .refl _ _
  | nop => cases h; exact .refl _ _
  | reservedCmd5 => cases h; exact .refl _ _
  | reservedCmd6 => cases h; exact .refl _ _
  | reservedCmd7 => cases h; exact .refl _ _
  | init => exact writeRights_loadInit (by decide) (by decide) (by decide) (by decide) h
  | enable => cases h; exact writeRights_assertPanel (by decide)
  | disable => exact writeRights_execDisable h
  | setframe => exact writeRights_loadFrame (by decide) h
  | phIdle =>
    simp only [exec, execPhIdle] at h
    split at h
    · exact writeRights_execCmd h
    split at h
    · cases h; exact writeRights_takeTick (by decide)
    · cases h; exact .refl _ _
  | phLatHi => cases h; exact (writeRights_emit (by decide) (by decide)).trans (writeRights_setPh _)
  | phAddr0 => cases h; exact (writeRights_emit (by decide) (by decide)).trans (writeRights_setPh _)
  | phAddr1 => cases h; exact (writeRights_emit (by decide) (by decide)).trans (writeRights_setPh _)
  | phAddr2 => cases h; exact (writeRights_emit (by decide) (by decide)).trans (writeRights_setPh _)
  | phClkLo => cases h; exact (writeRights_emit (by decide) (by decide)).trans (writeRights_setPh _)
  | phLatLo =>
    simp only [exec, execPhLatLo] at h
    have hemit : WriteRights .phLatLo s (emit .lat false s) := writeRights_emit (by decide) (by decide)
    split at h <;> cases h
    · exact hemit.trans (writeRights_setPh _)
    · exact (hemit.trans (writeRights_clearCol (by decide))).trans (writeRights_setPh _)
  | phSyncReq => cases h; exact writeRights_emitSync.trans (writeRights_setPh _)
  | phSyncWait =>
    obtain ⟨u, hu, h⟩ := andThen_eq_next.1 h
    have hload : WriteRights .phSyncWait s u := by
      split at hu
      · exact writeRights_loadFrame (by decide) hu
      · cases hu; exact .refl _ _
    split at h <;> cases h
    · exact (hload.trans (writeRights_bumpFrame (by decide))).trans (writeRights_setPh _)
    · exact hload.trans (writeRights_setPh _)
  | phRed =>
    obtain ⟨u, hu, h⟩ := andThen_eq_next.1 h
    cases h
    exact (writeRights_ditherTo (by decide) (by decide) (by decide) hu).trans (writeRights_setPh _)
  | phGrn =>
    obtain ⟨u, hu, h⟩ := andThen_eq_next.1 h
    cases h
    exact (writeRights_ditherTo (by decide) (by decide) (by decide) hu).trans (writeRights_setPh _)
  | phClkHi =>
    simp only [exec, execPhClkHi] at h
    have hemit : WriteRights .phClkHi s (emit .sclk true s) := writeRights_emit (by decide) (by decide)
    split at h <;> cases h
    · exact hemit.trans (writeRights_setPh _)
    · exact (hemit.trans (writeRights_advanceCol (by decide))).trans (writeRights_setPh _)
  | phReserved x => cases h; exact writeRights_setPh _

end

/-! ## The invariant, one rule per state operation -/

/-- The phase register holds one of the twelve phases and agrees with the row (R72, R159). -/
abbrev PhaseFits (ph : BitVec 4) (row : Row) : Prop :=
  ph = codeIdle ∨ inHeader ph ∨ (inSync ph ∧ row = 7) ∨ (inColumns ph ∧ row ≠ 7)

/-- The phases during which LAT is high (R88). -/
abbrev LatchedPhase (ph : BitVec 4) : Prop :=
  ph = codeAddr0 ∨ ph = codeAddr1 ∨ ph = codeAddr2 ∨ ph = codeLatLo

section
variable {s t u : State}

theorem lat_low_of_idle (h : s.Inv) (idle : s.ph = codeIdle) : ¬s.pins.lat = true := by
  rw [h.latch, idle]
  decide

theorem present_keeps_inv (h : s.Inv) (inp : Inputs) (rest : List Stimulus) : (present inp rest s).Inv :=
  { h with }

theorem markLost_keeps_inv (h : s.Inv) (b : Bool) : (markLost b s).Inv := { h with }

/-- A tick may be left pending only while enabled (R153). -/
theorem setPend_keeps_inv (h : s.Inv) {b : Level} (hb : b = true → s.run = true) : (setPend b s).Inv :=
  { h with pend := hb }

theorem bumpFrame_keeps_inv (h : s.Inv) : (bumpFrame s).Inv :=
  { h with frame := Nat.mod_lt _ (Nat.two_pow_pos _) }

theorem clearCol_keeps_inv (h : s.Inv) : (clearCol s).Inv :=
  have hcols : 0 < s.params.cols := lt_of_le_of_lt (Nat.zero_le _) h.col
  { h with col := hcols }

/-- CLK_HI increments the column counter only before the last column, so it never wraps (R152). -/
theorem advanceCol_keeps_inv (h : s.Inv) (hc : s.col ≠ s.params.cols - 1) : (advanceCol s).Inv :=
  { h with
    col := by
      have hlt := h.col
      have hmod := Nat.mod_le (s.col + 1) (2 ^ colWidth s.params)
      show (s.col + 1) % 2 ^ colWidth s.params < s.params.cols
      omega }

theorem fillFb_keeps_inv (h : s.Inv) {bs : List Byte} (hb : bs.length ≤ s.cells) : (fillFb bs s).Inv :=
  { h with fb := (eff_fillFb bs s hb).fb h.fb }

theorem zeroFb_keeps_inv (h : s.Inv) : (zeroFb s).Inv := fillFb_keeps_inv h (by simp)

theorem storeAcc_keeps_inv (h : s.Inv) {a : Nat} (ha : a < s.cells) (v : Byte) : (storeAcc a v s).Inv :=
  { h with acc := (eff_storeAcc a v s ha).acc h.acc }

/-- In IDLE the row is bound to nothing. -/
theorem setRow_keeps_inv (h : s.Inv) (idle : s.ph = codeIdle) (r : Row) : (setRow r s).Inv :=
  { h with phase := .inl idle, flush := fun _ busy => absurd idle busy }

theorem loadFrame_keeps_inv (h : s.Inv) {buf : List Byte} (hx : loadFrame buf s = .next t) : t.Inv := by
  obtain ⟨-, rfl⟩ := loadFrame_eq_next.1 hx
  exact fillFb_keeps_inv h (by simp)

theorem loadInit_keeps_inv (h : s.Inv) (idle : s.ph = codeIdle) (hx : loadInit s = .next t) : t.Inv := by
  have e := eff_loadInit hx
  obtain ⟨-, rfl⟩ := loadInit_eq_next.1 hx
  exact { h with
    frame := Nat.two_pow_pos _, phase := .inl idle, acc := e.acc h.acc, fb := e.fb h.fb
    flush := fun _ busy => absurd idle busy }

theorem assertPanel_keeps_inv (h : s.Inv) : (assertPanel s).Inv :=
  { h with pend := fun _ => rfl, panel := rfl, flush := nofun }

/-- DISABLE's first half clears the pending tick with `run`. -/
theorem quiesce_keeps_inv (h : s.Inv) (idle : s.ph = codeIdle) : (quiesce s).Inv :=
  zeroFb_keeps_inv (s := emit .panelEn false (setPend false (setRun false s)))
    { h with pend := nofun, panel := rfl, flush := fun _ busy => absurd idle busy }

/-- The accept cycle of DISABLE, which the latch update completes: it starts row 1's flush tick (R154). -/
theorem acceptDisable_keeps_inv (h : s.Inv) (idle : s.ph = codeIdle) : (setPend false (acceptDisable s)).Inv :=
  have lat := lat_low_of_idle h idle
  { h with
    phase := .inr (.inl (.inl rfl)), fb := (eff_zeroFb s).fb h.fb, pend := nofun, panel := rfl
    latch := iff_of_false lat (show ¬LatchedPhase codeLatHi by decide)
    flush := fun _ _ => rfl }

theorem takeTick_keeps_inv (h : s.Inv) (idle : s.ph = codeIdle) (hrun : s.run = true) : (takeTick s).Inv :=
  have lat := lat_low_of_idle h idle
  { h with
    phase := .inr (.inl (.inl rfl))
    latch := iff_of_false lat (show ¬LatchedPhase codeLatHi by decide)
    flush := fun hr => absurd (hrun.symm.trans hr) (by decide) }

/-- A tick taken whole, in IDLE: an enabled block's, or DISABLE's flush tick, which is row 1's (R80, R123). -/
theorem tickBody_keeps_inv (h : s.Inv) (idle : s.ph = codeIdle) (hrow : s.run = true ∨ s.row = 0)
    (hx : tickBody s = .next t) : t.Inv := by
  obtain ⟨⟨es, e⟩, row, run, pend, col, lat, panel, branch⟩ := tickBody_effect hx
  have hcells : t.cells = s.cells := by rw [cells_eq, cells_eq, e.params]
  have hph : t.ph = codeIdle ∨ t.ph = codeSyncWait ∧ t.row = 7 := by
    rcases branch with ⟨h7, ⟨hp, -⟩ | ⟨hp, -⟩⟩ | ⟨-, hp, -⟩
    · exact .inl (hp.trans idle)
    · exact .inr ⟨hp, row.trans h7⟩
    · exact .inl (hp.trans idle)
  have hframe : t.frame = s.frame ∨ t.frame = (s.frame + 1) % 2 ^ s.params.fcw := by
    rcases branch with ⟨-, ⟨-, hf⟩ | ⟨-, hf⟩⟩ | ⟨-, -, hf⟩
    · exact .inr hf
    · exact .inl hf
    · exact .inl hf
  constructor
  case params => rw [e.params]; exact h.params
  case frame =>
    rw [e.params]
    rcases hframe with hf | hf <;> rw [hf]
    · exact h.frame
    · exact Nat.mod_lt _ (Nat.two_pow_pos _)
  case col => rw [col, e.params]; exact h.col
  case phase =>
    rcases hph with hp | ⟨hp, h7⟩
    · exact .inl hp
    · exact .inr (.inr (.inl ⟨.inr hp, h7⟩))
  case acc => rw [hcells]; exact e.acc h.acc
  case fb => rw [hcells]; exact e.fb h.fb
  case pend => rw [pend, run]; exact h.pend
  case panel => rw [panel, run]; exact h.panel
  case latch =>
    rw [lat]
    rcases hph with hp | ⟨hp, -⟩ <;> rw [hp] <;> decide
  case flush =>
    intro hr _
    rcases hrow with hs | hs
    · rw [run, hs] at hr; cases hr
    · rw [row, hs]; rfl

/-! ## The invariant along the operation level -/

theorem execTick_keeps_inv (h : s.Inv) (idle : s.ph = codeIdle) (hx : exec .tick s = .next t) : t.Inv := by
  simp only [exec, execTick] at hx
  split at hx
  · next hrun => exact tickBody_keeps_inv h idle (.inl hrun) hx
  · cases hx; exact h

theorem execDisable_keeps_inv (h : s.Inv) (idle : s.ph = codeIdle) (hx : execDisable s = .next t) : t.Inv :=
  tickBody_keeps_inv (s := setRow 0 (quiesce s)) (setRow_keeps_inv (quiesce_keeps_inv h idle) idle 0) idle
    (.inr rfl) hx

/-- The instruction of a ready command is SETFRAME, or the sequencer is in IDLE (R125). -/
theorem execCommand_keeps_inv (h : s.Inv) {c : BitVec 3} (ready : cmdReady s.ph c = true)
    (hx : exec (decodeCmd c) s = .next t) : t.Inv := by
  have hidle : c ≠ cmdSetframe → s.ph = codeIdle := fun hc =>
    (cmdReady_iff.1 ready).resolve_right fun hw => hc hw.2
  unfold decodeCmd at hx
  split at hx
  · cases hx; exact h
  split at hx
  · next hc => exact loadInit_keeps_inv h (hidle (by rw [hc]; decide)) hx
  split at hx
  · cases hx; exact assertPanel_keeps_inv h
  split at hx
  · next hc => exact execDisable_keeps_inv h (hidle (by rw [hc]; decide)) hx
  split at hx
  · exact loadFrame_keeps_inv h hx
  split at hx
  · cases hx; exact h
  split at hx <;> cases hx <;> exact h

/-! ## The invariant along the cycle level -/

/-- A change of phase within an operation, with the pins and the trace it brings. -/
theorem move_keeps_inv (h : s.Inv) (busy : s.ph ≠ codeIdle) {q : BitVec 4} {ps : Pins} {tr : List Event}
    (phase : PhaseFits q s.row) (panel : ps.panelEn = s.pins.panelEn)
    (latch : ps.lat = true ↔ LatchedPhase q) : State.Inv { s with ph := q, pins := ps, trace := tr } :=
  { h with
    phase := phase, panel := panel.trans h.panel, latch := latch, flush := fun hr _ => h.flush hr busy }

theorem setPh_keeps_inv (h : s.Inv) (busy : s.ph ≠ codeIdle) {q : BitVec 4} (phase : PhaseFits q s.row)
    (latch : LatchedPhase q ↔ LatchedPhase s.ph) : (setPh q s).Inv :=
  move_keeps_inv h busy phase rfl (h.latch.trans latch.symm)

/-- A phase that writes a pin other than LAT and PANEL_EN and goes on to `q`. -/
theorem emit_setPh_keeps_inv (h : s.Inv) (busy : s.ph ≠ codeIdle) {p : Pin} {v : Level} {q : BitVec 4}
    (hpanel : p ≠ .panelEn) (hlat : p ≠ .lat) (phase : PhaseFits q s.row)
    (latch : LatchedPhase q ↔ LatchedPhase s.ph) : (setPh q (emit p v s)).Inv := by
  have panel : (s.pins.set p v).panelEn = s.pins.panelEn := by
    simpa [Pins.get, hpanel] using Pins.get_set s.pins p .panelEn v
  have lat : (s.pins.set p v).lat = s.pins.lat := by
    simpa [Pins.get, hlat] using Pins.get_set s.pins p .lat v
  have level : (s.pins.set p v).lat = true ↔ LatchedPhase q := by
    rw [lat]
    exact h.latch.trans latch.symm
  exact move_keeps_inv h busy phase panel level

/-- A visit (RED or GRN) that goes on to phase `q`. -/
theorem ditherTo_setPh_keeps_inv (h : s.Inv) (busy : s.ph ≠ codeIdle) {p : Pin} {c ch : Nat} {q : BitVec 4}
    (hpanel : p ≠ .panelEn) (hlat : p ≠ .lat) (phase : PhaseFits q s.row)
    (latch : LatchedPhase q ↔ LatchedPhase s.ph) (hx : ditherTo p c ch s = .next u) : (setPh q u).Inv := by
  obtain ⟨ha, _, _, -, -, rfl⟩ := ditherTo_eq_next.1 hx
  exact emit_setPh_keeps_inv (storeAcc_keeps_inv h ha _) busy hpanel hlat phase latch

theorem execPhLatHi_keeps_inv (h : s.Inv) (hp : s.ph = codeLatHi) (hx : execPhLatHi s = .next t) : t.Inv := by
  cases hx
  exact move_keeps_inv h (by rw [hp]; decide) (.inr (.inl (.inr (.inl rfl)))) rfl (iff_of_true rfl (.inl rfl))

theorem execPhLatLo_keeps_inv (h : s.Inv) (hp : s.ph = codeLatLo) (hx : execPhLatLo s = .next t) : t.Inv := by
  have busy : s.ph ≠ codeIdle := by rw [hp]; decide
  unfold execPhLatLo at hx
  split at hx <;> cases hx
  · next h7 =>
    exact move_keeps_inv h busy (.inr (.inr (.inl ⟨.inl rfl, isSync_iff.1 h7⟩))) rfl
      (iff_of_false Bool.false_ne_true (by decide))
  · next h7 =>
    exact move_keeps_inv (clearCol_keeps_inv h) busy
      (.inr (.inr (.inr ⟨.inl rfl, fun e => h7 (isSync_iff.2 e)⟩))) rfl
      (iff_of_false Bool.false_ne_true (by decide))

theorem execPhSyncWait_keeps_inv (h : s.Inv) (hp : s.ph = codeSyncWait) (h7 : s.row = 7)
    (hx : execPhSyncWait s = .next t) : t.Inv := by
  obtain ⟨u, hu, hx⟩ := andThen_eq_next.1 hx
  have hload : u.Inv ∧ u.ph = s.ph ∧ u.row = s.row := by
    split at hu
    · refine ⟨loadFrame_keeps_inv h hu, ?_⟩
      obtain ⟨-, rfl⟩ := loadFrame_eq_next.1 hu
      exact ⟨rfl, rfl⟩
    · cases hu; exact ⟨h, rfl, rfl⟩
  obtain ⟨hinv, hph, hrow⟩ := hload
  rw [hp] at hph
  have busy : u.ph ≠ codeIdle := by rw [hph]; decide
  split at hx <;> cases hx
  · exact setPh_keeps_inv (bumpFrame_keeps_inv hinv) busy (.inl rfl) (by rw [bumpFrame_ph, hph]; decide)
  · exact setPh_keeps_inv hinv busy (.inr (.inr (.inl ⟨.inr rfl, hrow.trans h7⟩))) (by rw [hph])

theorem execPhClkHi_keeps_inv (h : s.Inv) (hp : s.ph = codeClkHi) (h7 : s.row ≠ 7)
    (hx : execPhClkHi s = .next t) : t.Inv := by
  have busy : s.ph ≠ codeIdle := by rw [hp]; decide
  unfold execPhClkHi at hx
  split at hx <;> cases hx
  · exact emit_setPh_keeps_inv h busy (by decide) (by decide) (.inl rfl) (by rw [hp]; decide)
  · next hc =>
    exact emit_setPh_keeps_inv (p := .sclk) (v := true) (advanceCol_keeps_inv h hc) busy (by decide) (by decide)
      (.inr (.inr (.inr ⟨.inl rfl, h7⟩))) (by rw [advanceCol_ph, hp]; decide)

/-- A phase other than IDLE keeps the invariant: the phase register and the row agree, so there are eleven of
them, each with its successor (R142 to R152). -/
theorem execBusyPhase_keeps_inv (h : s.Inv) (busy : s.ph ≠ codeIdle)
    (hx : exec (decodePhase s.ph) s = .next t) : t.Inv := by
  rcases h.phase with hp | (hp | hp | hp | hp | hp) | ⟨hp | hp, h7⟩ | ⟨hp | hp | hp | hp, h7⟩
  · exact absurd hp busy
  · exact execPhLatHi_keeps_inv h hp (by rwa [hp] at hx)
  · rw [hp] at hx
    cases hx
    exact emit_setPh_keeps_inv h busy (by decide) (by decide) (.inr (.inl (.inr (.inr (.inl rfl)))))
      (by rw [hp]; decide)
  · rw [hp] at hx
    cases hx
    exact emit_setPh_keeps_inv h busy (by decide) (by decide) (.inr (.inl (.inr (.inr (.inr (.inl rfl))))))
      (by rw [hp]; decide)
  · rw [hp] at hx
    cases hx
    exact emit_setPh_keeps_inv h busy (by decide) (by decide) (.inr (.inl (.inr (.inr (.inr (.inr rfl))))))
      (by rw [hp]; decide)
  · exact execPhLatLo_keeps_inv h hp (by rwa [hp] at hx)
  · rw [hp] at hx
    cases hx
    exact move_keeps_inv h busy (.inr (.inr (.inl ⟨.inr rfl, h7⟩))) rfl (h.latch.trans (by rw [hp]; decide))
  · exact execPhSyncWait_keeps_inv h hp h7 (by rwa [hp] at hx)
  · rw [hp] at hx
    cases hx
    exact emit_setPh_keeps_inv h busy (by decide) (by decide) (.inr (.inr (.inr ⟨.inr (.inl rfl), h7⟩)))
      (by rw [hp]; decide)
  · rw [hp] at hx
    obtain ⟨u, hu, hx⟩ := andThen_eq_next.1 hx
    cases hx
    exact ditherTo_setPh_keeps_inv h busy (by decide) (by decide) (.inr (.inr (.inr ⟨.inr (.inr (.inl rfl)), h7⟩)))
      (by rw [hp]; decide) hu
  · rw [hp] at hx
    obtain ⟨u, hu, hx⟩ := andThen_eq_next.1 hx
    cases hx
    exact ditherTo_setPh_keeps_inv h busy (by decide) (by decide) (.inr (.inr (.inr ⟨.inr (.inr (.inr rfl)), h7⟩)))
      (by rw [hp]; decide) hu
  · exact execPhClkHi_keeps_inv h hp h7 (by rwa [hp] at hx)

/-- The latch is set only under `run = 1`, and not by a cycle that accepts DISABLE (R153). -/
theorem nextPend_needs (h : s.Inv) (hn : nextPend s = true) : s.run = true ∧ ¬acceptsDisable s = true := by
  obtain ⟨hd, ⟨-, hr⟩ | ⟨-, hp⟩⟩ := nextPend_iff.1 hn
  · exact ⟨hr, hd⟩
  · exact ⟨h.pend hp, hd⟩

/-- Only IDLE's code stands for IDLE, and none for ENABLE or DISABLE. -/
theorem decodePhase_notMem_runWriters {p : BitVec 4} (h : p ≠ codeIdle) : decodePhase p ∉ runWriters := by
  revert p; decide

/-- The accept cycle of any command but DISABLE, as one step of the invariant, and `run` does not fall (R154). -/
theorem execCmd_keeps_inv (h : s.Inv) (idle : s.ph = codeIdle) {c : BitVec 3} (hc : c ≠ cmdDisable)
    (hx : execCmd c s = .next t) : t.Inv ∧ (s.run = true → t.run = true) := by
  unfold execCmd at hx
  split at hx
  · refine ⟨loadInit_keeps_inv h idle hx, ?_⟩
    obtain ⟨-, rfl⟩ := loadInit_eq_next.1 hx
    exact id
  split at hx
  · cases hx; exact ⟨assertPanel_keeps_inv h, fun _ => rfl⟩
  split at hx
  · refine ⟨loadFrame_keeps_inv h hx, ?_⟩
    obtain ⟨-, rfl⟩ := loadFrame_eq_next.1 hx
    exact id
  cases hx
  exact ⟨h, id⟩

/-- The accept cycle of DISABLE. -/
theorem execCmd_disable (s : State) : execCmd cmdDisable s = .next (acceptDisable s) := by
  simp [execCmd, cmdDisable, cmdInit, cmdEnable, cmdSetframe]

/-- A cycle in IDLE with its latch update: a command, a start, or nothing (R141). -/
theorem execPhIdle_keeps_inv (h : s.Inv) (idle : s.ph = codeIdle) (hx : execPhIdle s = .next t) :
    (setPend (nextPend s) t).Inv := by
  have keep : t.Inv → (s.run = true → t.run = true) → (setPend (nextPend s) t).Inv := fun ht hr =>
    setPend_keeps_inv ht fun hn => hr (nextPend_needs h hn).1
  unfold execPhIdle at hx
  split at hx
  · next ha =>
    by_cases hc : s.inp.cmd = cmdDisable
    · rw [hc, execCmd_disable] at hx
      cases hx
      have hd : acceptsDisable s = true := acceptsDisable_iff.2 ⟨by rw [idle]; exact ha, hc⟩
      have hn : nextPend s = false := Bool.eq_false_iff.2 fun hn => (nextPend_needs h hn).2 hd
      rw [hn]
      exact acceptDisable_keeps_inv h idle
    · obtain ⟨ht, hr⟩ := execCmd_keeps_inv h idle hc hx
      exact keep ht hr
  split at hx
  · next hs =>
    cases hx
    obtain ⟨-, -, -, hrun⟩ := startIn_iff.1 hs
    exact keep (takeTick_keeps_inv h idle hrun) id
  · cases hx; exact keep h id

/-- A clock cycle keeps the invariant: the phase's rule, then the latch (R140). -/
theorem clockCycle_keeps_inv (h : s.Inv) (hx : exec (decodePhase s.ph) s = .next u) : (latchTick s u).Inv := by
  refine markLost_keeps_inv ?_ _
  by_cases idle : s.ph = codeIdle
  · exact execPhIdle_keeps_inv h idle (by rwa [idle] at hx)
  · have hrun : u.run = s.run := (exec_writeRights hx).run (decodePhase_notMem_runWriters idle)
    exact setPend_keeps_inv (execBusyPhase_keeps_inv h idle hx) fun hn =>
      hrun.trans (nextPend_needs h hn).1

/-- Reset establishes the invariant from parameters in their domains, whatever was in progress (R31, R190). -/
theorem rstEdge_inv (h : s.params.wf = true) : (rstEdge s).Inv where
  params := h
  frame := Nat.two_pow_pos _
  col := by
    obtain ⟨hcols, -⟩ : 1 ≤ s.params.cols ∧ 1 ≤ s.params.fcw := by simpa [Params.wf] using h
    exact hcols
  phase := .inl rfl
  acc := ⟨.nil, nofun⟩
  fb := ⟨.nil, nofun⟩
  pend := nofun
  panel := rfl
  latch := iff_of_false Bool.false_ne_true (show ¬LatchedPhase codeIdle by decide)
  flush := fun _ busy => absurd rfl busy

/-- The state after `rst` is the one that the `rst` edge keeps. -/
theorem rstEdge_resetOf (p : Params) : rstEdge (State.resetOf p) = State.resetOf p := rfl

theorem resetOf_inv {p : Params} (h : p.wf = true) : (State.resetOf p).Inv :=
  rstEdge_resetOf p ▸ rstEdge_inv h

end

/-! ## INIT's memories -/

/-- What ACC reads after its cells are seeded. -/
theorem read_fillAcc_take {buf : List Byte} {s : State} (h : s.cells ≤ buf.length) (a : Nat) :
    (fillAcc (buf.take s.cells) s).acc.read a = if a < s.cells then buf[a]? else s.acc.read a := by
  simp only [fillAcc_acc, Memory.read_writeRun, List.length_take, Nat.sub_zero, Nat.zero_le, true_and,
    Nat.zero_add, Nat.min_eq_left h]
  split
  · next ha => rw [List.getElem?_take_of_lt ha]
  · rfl

/-! ## The statements of the family -/

/-- Settles O39: each form of a step keeps the invariant. -/
theorem everyStepKeepsTheInvariant : Obligations.EveryStepKeepsTheInvariant := by
  unfold Obligations.EveryStepKeepsTheInvariant
  intro s t h hx
  cases step_form hx with
  | rst inp rest turn level next => rw [next]; exact rstEdge_inv h.params
  | clock inp rest u turn level phase next =>
    rw [next]
    exact clockCycle_keeps_inv (present_keeps_inv h inp rest) phase
  | tick hook rest turn idle run => exact execTick_keeps_inv (present_keeps_inv h _ rest) idle run
  | command c src seed rest turn ready run =>
    exact execCommand_keeps_inv (present_keeps_inv h _ rest) ready run

/-- Settles O17: INIT with a long enough operand is its two whole-memory writes and the two cleared registers. -/
theorem initZeroesTheFrameAndSeedsTheAccumulators :
    Obligations.InitZeroesTheFrameAndSeedsTheAccumulators := by
  unfold Obligations.InitZeroesTheFrameAndSeedsTheAccumulators
  intro s hlen
  exact ⟨_, loadInit_eq_next.2 ⟨hlen, rfl⟩, rfl, read_zeroFb s, read_fillAcc_take hlen⟩

/-- Settles O37: the latch and the mark after a cycle are `nextPend` and `losesTick` of the presented state, and
no phase rule touches the mark. -/
theorem pendingTickLatchUpdate : Obligations.PendingTickLatchUpdate := by
  unfold Obligations.PendingTickLatchUpdate
  intro s t inp rest accept start hstim hrst hstep haccept hstart
  rw [step_clock hrst (show nextTurn s = clockTurn s inp rest by simp [nextTurn, hstim])] at hstep
  obtain ⟨u, hu, ht⟩ := andThen_eq_next.1 hstep
  cases ht
  obtain ⟨es, e, -⟩ := exec_effect hu
  have ha : acceptIn s.ph inp = true ↔ accept := acceptIn_iff.trans haccept.symm
  have hd : acceptsDisable (present inp rest s) = true ↔ accept ∧ inp.cmd = 0b011#3 :=
    acceptsDisable_iff.trans (and_congr_left' ha)
  have hs : startIn s.ph (present inp rest s) = true ↔ start :=
    startIn_iff.trans ((and_congr_right' (and_congr_left' (not_congr ha))).trans hstart.symm)
  constructor
  · show nextPend (present inp rest s) = true ↔ _
    rw [nextPend_iff, hd]
    exact and_congr_right' (or_congr_right (and_congr_left' (not_congr hs)))
  · show (u.lost || losesTick (present inp rest s)) = true ↔ _
    rw [Bool.or_eq_true, losesTick_iff, hd, e.lost]
    exact or_congr_right (and_congr_right' (and_congr_right' (and_congr_right'
      (and_congr_left' (not_congr hs)))))

/-- Settles O41: what a step does to the memories is what its instruction's effect does. -/
theorem cellsStayDefined : Obligations.CellsStayDefined := by
  unfold Obligations.CellsStayDefined
  intro s t hr hstep a
  obtain ⟨inp, rest, u, es, e, -, -, hfb, hacc, -⟩ := step_effect hr hstep
  rw [hfb, hacc]
  exact ⟨e.fbD a, e.accD a⟩

/-- Settles O42: R33's table, read as "whoever changes a register is among its writers". -/
theorem onlyTheOwnersWriteEachRegister : Obligations.OnlyTheOwnersWriteEachRegister := by
  unfold Obligations.OnlyTheOwnersWriteEachRegister
  intro i s t h
  obtain ⟨es, e, -⟩ := exec_effect h
  have k := exec_writeRights h
  refine ⟨not_imp_comm.1 k.row, not_imp_comm.1 k.frame, ?_, not_imp_comm.1 k.acc, not_imp_comm.1 k.fb,
    not_imp_comm.1 k.pend, not_imp_comm.1 k.col, ?_, e.params, e.inp, e.stim, e.lost, e.earlier⟩
  · rintro (hrun | hpanel)
    · exact not_imp_comm.1 k.run hrun
    · exact not_imp_comm.1 k.panel hpanel
  · rintro ⟨p, hp, hne⟩
    exact not_imp_comm.1 (fun n => k.pins n p hp) hne

/-- Settles O43: the events of a step are those of its instruction's effect, and each pin follows them. -/
theorem pinsFollowTheTrace : Obligations.PinsFollowTheTrace := by
  unfold Obligations.PinsFollowTheTrace
  intro s t hr hstep
  obtain ⟨inp, rest, u, es, e, htrace, hpins, -, -, hlen⟩ := step_effect hr hstep
  exact ⟨es, htrace.trans e.trace, fun p => by rw [hpins]; exact e.pins p, hlen⟩

/-- Settles O9: the step of a `rst` turn is the `rst` edge, whose fields are the reset values. -/
theorem rstCycleResetsEveryRegister : Obligations.RstCycleResetsEveryRegister := by
  unfold Obligations.RstCycleResetsEveryRegister
  constructor
  · intro s inp rest hstim hrst
    have turn : nextTurn s = clockTurn s inp rest := by simp [nextTurn, hstim]
    exact ⟨⟨by rw [turn]; rfl, by rw [turn]; exact hrst⟩, by rw [turn]; rfl⟩
  · intro s hr
    refine ⟨_, step_rstTurn hr, rfl, rfl, rfl, rfl, rfl, rfl, rfl, fun _ => ⟨rfl, rfl⟩, ?_, rfl,
      fun _ => cmdReady_iff.2 (.inl rfl), rfl, rfl⟩
    exact List.append_nil _

/-- Settles O10: the fields of `State.resetOf`, one by one. -/
theorem resetStateHasTheSpecsValues : Obligations.ResetStateHasTheSpecsValues := by
  unfold Obligations.ResetStateHasTheSpecsValues
  intro p
  exact ⟨rfl, rfl, rfl, rfl, rfl, rfl, rfl, Memory.read_nil, Memory.read_nil, rfl, rfl, Params.chosen, rfl⟩

/-- Settles O11: reset gives the invariant for all parameters in their domains, and the chosen ones are. -/
theorem resetSatisfiesTheInvariant : Obligations.ResetSatisfiesTheInvariant := by
  unfold Obligations.ResetSatisfiesTheInvariant
  exact ⟨fun p h => resetOf_inv h, resetOf_inv (show Params.chosen.wf = true by decide)⟩

/-- Settles O38: each port is the function of R25. -/
theorem outputPortsFollowTheState : Obligations.OutputPortsFollowTheState := by
  unfold Obligations.OutputPortsFollowTheState
  intro s
  have hsync : (outputs s).syncReq = true ↔ s.ph = codeSyncReq := beq_iff_eq
  have hbusy : (outputs s).busy = true ↔ s.ph ≠ codeIdle := bne_iff_ne
  have hhigh : s.pins.panelEn = true → (outputs s).panelEn = s.params.panelEnActive := fun h =>
    if_pos h
  have hlow : s.pins.panelEn = false → (outputs s).panelEn = !s.params.panelEnActive := fun h =>
    if_neg (Bool.eq_false_iff.1 h)
  exact ⟨hsync, rfl, cmdReady_iff, hbusy, hhigh, hlow, rfl, rfl, rfl, rfl, rfl, rfl, rfl⟩

end Sys2Proof.Machine
end

-- ==== Proofs of the family 20_memory ====
section
/-! PROOFS of the family 20_memory: definedness of the cells (R55), the placement of a frame (R41, R61), what a
short operand or a valueless cell stops, what a tick never reads (R49), and how often it visits a cell (R54,
R105). -/

namespace Sys2Proof.Machine

/-! ## What completes: no operation of an initialised block stops -/

section
variable {s t : State}

/-- A state in which every cell that held a value still holds one is initialised when the earlier one was. -/
theorem initialised_of_defined (hp : t.params = s.params)
    (hacc : ∀ a, (s.acc.read a).isSome → (t.acc.read a).isSome)
    (hfb : ∀ a, (s.fb.read a).isSome → (t.fb.read a).isSome) (hd : s.Initialised) : t.Initialised := by
  obtain ⟨dacc, dfb⟩ := hd
  have hcells : t.cells = s.cells := by rw [cells_eq, cells_eq, hp]
  exact ⟨fun a ha => hacc a (dacc a (hcells ▸ ha)), fun a ha => hfb a (dfb a (hcells ▸ ha))⟩

/-- An effect takes no value from a cell (R55). -/
theorem Eff.initialised {es : List Event} (e : Eff s es t) (hd : s.Initialised) : t.Initialised :=
  initialised_of_defined e.params e.accD e.fbD hd

/-- The cells of the row that the cursor selects hold a value. -/
theorem columnsHold_of_initialised (hd : s.Initialised) : ∃ A P, ColumnsHold s 0 s.params.cols A P :=
  columnsHold_of_defined fun c ch _ hc hch =>
    have hlt : cellAddr s.params s.row.toNat c ch < s.cells := cellAddr_lt (row_lt s.row) (by omega) hch
    ⟨hd.1 _ hlt, hd.2 _ hlt⟩

theorem render_completes (hd : s.Initialised) : ∃ t, render s = .next t := by
  obtain ⟨A, P, h⟩ := columnsHold_of_initialised hd
  obtain ⟨t, ht, -⟩ := render_rendered h
  exact ⟨t, ht⟩

theorem ditherTo_completes (hd : s.Initialised) {c ch : Nat} (hc : c < s.params.cols) (hch : ch < 2) (pin : Pin) :
    ∃ t, ditherTo pin c ch s = .next t := by
  have hlt : cellAddr s.params s.row.toNat c ch < s.cells := cellAddr_lt (row_lt s.row) hc hch
  obtain ⟨av, hav⟩ := Option.isSome_iff_exists.1 (hd.1 _ hlt)
  obtain ⟨pv, hpv⟩ := Option.isSome_iff_exists.1 (hd.2 _ hlt)
  exact ⟨_, ditherTo_eq_next.2 ⟨hlt, av, pv, hav, hpv, rfl⟩⟩

theorem loadFrame_completes {buf : List Byte} (h : s.cells ≤ buf.length) : ∃ t, loadFrame buf s = .next t :=
  ⟨_, loadFrame_eq_next.2 ⟨h, rfl⟩⟩

theorem loadInit_completes (h : s.cells ≤ s.inp.seedBuf.length) : ∃ t, loadInit s = .next t :=
  ⟨_, loadInit_eq_next.2 ⟨h, rfl⟩⟩

theorem eff_afterHeader (s : State) : Eff s (headerEvents (s.row + 1)) (afterHeader s) :=
  (eff_registers (t := advanceRow s) rfl).trans (eff_header _)

/-- A strobe becomes a tick only while enabled (R80). -/
theorem exec_tick_enabled (h : s.run = true) : exec .tick s = tickBody s := if_pos h

theorem exec_tick_disabled (h : ¬s.run = true) : exec .tick s = .next s := if_neg h

/-- A tick completes on both branches: the Hook's operands are long enough, the rendered cells defined. -/
theorem tickBody_completes (hd : s.Initialised) (hh : ∀ b ∈ s.inp.hook.frames, s.cells ≤ b.length) :
    ∃ t, tickBody s = .next t := by
  by_cases h7 : s.row + 1 = 7
  · rw [tickBody_sync h7]
    exact ⟨_, syncTick_eq_next.2 ⟨hh, rfl⟩⟩
  · rw [tickBody_render h7]
    exact render_completes ((eff_afterHeader s).initialised hd)

/-- DISABLE's flush tick renders row 1 from the zeroed framebuffer (R123). -/
theorem execDisable_completes (hd : s.Initialised) : ∃ t, execDisable s = .next t := by
  have equiesce : Eff s _ (quiesce s) :=
    ((eff_registers (s := s) (t := setPend false (setRun false s)) rfl).trans (eff_emit .panelEn false _)).trans
      (eff_zeroFb _)
  have erow : Eff (quiesce s) [] (setRow 0 (quiesce s)) := eff_registers rfl
  rw [execDisable_eq]
  exact render_completes (((equiesce.trans erow).trans (eff_afterHeader _)).initialised hd)

/-- An operand of the port's size is long enough to be read (R44). -/
theorem cells_le_of_operandExact {buf : List Byte} (h : operandExact s.params buf = true) :
    s.cells ≤ buf.length := by
  rw [cells_eq]
  exact (of_decide_eq_true h).ge

/-- A command that the accept cycle executes completes with operands of the ports' size (R154). -/
theorem execCmd_completes (hsrc : operandExact s.params s.inp.srcBuf = true)
    (hseed : operandExact s.params s.inp.seedBuf = true) (c : BitVec 3) : ∃ t, execCmd c s = .next t := by
  unfold execCmd
  split
  · exact loadInit_completes (cells_le_of_operandExact hseed)
  split
  · exact ⟨_, rfl⟩
  split
  · exact loadFrame_completes (cells_le_of_operandExact hsrc)
  split <;> exact ⟨_, rfl⟩

theorem execPhIdle_completes (hw : Instr.wf s.params s.inp .phIdle = true) : ∃ t, execPhIdle s = .next t := by
  unfold execPhIdle
  split
  · next ha =>
    have hv : s.inp.cmdValid = true := (acceptIn_iff.1 ha).1
    obtain ⟨hsrc, hseed⟩ : operandExact s.params s.inp.srcBuf = true ∧
        operandExact s.params s.inp.seedBuf = true := by simpa [Instr.wf, hv] using hw
    exact execCmd_completes hsrc hseed _
  split <;> exact ⟨_, rfl⟩

theorem execPhSyncWait_completes (hw : Instr.wf s.params s.inp .phSyncWait = true) :
    ∃ t, execPhSyncWait s = .next t := by
  have hload : ∃ u, (if acceptIn codeSyncWait s.inp then loadFrame s.inp.srcBuf s else .next s) = .next u := by
    split
    · next ha =>
      have hv : s.inp.cmdValid = true := (acceptIn_iff.1 ha).1
      have hsrc : operandExact s.params s.inp.srcBuf = true := by simpa [Instr.wf, hv] using hw
      exact loadFrame_completes (cells_le_of_operandExact hsrc)
    · exact ⟨s, rfl⟩
  obtain ⟨u, hu⟩ := hload
  unfold execPhSyncWait
  rw [hu, andThen_next]
  split <;> exact ⟨_, rfl⟩

/-- Every instruction of an initialised block completes, when the operands beside it have the ports' size. -/
theorem exec_completes (hcol : s.col < s.params.cols) (hd : s.Initialised) {i : Instr}
    (hw : i.wf s.params s.inp = true) : ∃ t, exec i s = .next t := by
  cases i with
  | tick =>
    by_cases hrun : s.run = true
    · rw [exec_tick_enabled hrun]
      exact tickBody_completes hd fun b hb => cells_le_of_operandExact (List.all_eq_true.1 hw b hb)
    · exact ⟨s, exec_tick_disabled hrun⟩
  | init => exact loadInit_completes (cells_le_of_operandExact hw)
  | setframe => exact loadFrame_completes (cells_le_of_operandExact hw)
  | disable => exact execDisable_completes hd
  | phIdle => exact execPhIdle_completes hw
  | phSyncWait => exact execPhSyncWait_completes hw
  | phRed =>
    obtain ⟨u, hu⟩ := ditherTo_completes hd hcol (show chRed < 2 by decide) .dr
    exact ⟨_, andThen_eq_next.2 ⟨u, hu, rfl⟩⟩
  | phGrn =>
    obtain ⟨u, hu⟩ := ditherTo_completes hd hcol (show chGreen < 2 by decide) .dg
    exact ⟨_, andThen_eq_next.2 ⟨u, hu, rfl⟩⟩
  | phLatLo =>
    simp only [exec, execPhLatLo]
    split <;> exact ⟨_, rfl⟩
  | phClkHi =>
    simp only [exec, execPhClkHi]
    split <;> exact ⟨_, rfl⟩
  | nop | enable | reservedCmd5 | reservedCmd6 | reservedCmd7 | phLatHi | phAddr0 | phAddr1 | phAddr2 | phSyncReq
  | phClkLo | phReserved => exact ⟨_, rfl⟩

end

/-! ## Operands of the ports' size, along the stimuli -/

section
variable {p : Params}

/-- The ports of a clock cycle are well-formed for whatever phase it runs. -/
theorem decodePhase_wf {inp : Inputs} (h : (Stimulus.cycle inp).wf p = true) (ph : BitVec 4) :
    (decodePhase ph).wf p inp = true := by
  have hphase : decodePhase ph ∉ [.tick, .init, .setframe] := by
    revert ph; decide
  generalize decodePhase ph = i at hphase
  cases i with
  | tick | init | setframe => exact absurd (by decide) hphase
  | phIdle => exact h
  | phSyncWait =>
    have hor : operandExact p inp.srcBuf = true ∧ operandExact p inp.seedBuf = true ∨ inp.cmdValid = false := by
      simpa [Stimulus.wf] using h
    rcases hor with ⟨hsrc, -⟩ | hv
    · simp [Instr.wf, hsrc]
    · simp [Instr.wf, hv]
  | _ => rfl

/-- The instruction of a command is well-formed with the operands that came beside the command. -/
theorem decodeCmd_wf {c : BitVec 3} {src seed : List Byte} (h : (Stimulus.command c src seed).wf p = true)
    (inp : Inputs) (hsrc : inp.srcBuf = src) (hseed : inp.seedBuf = seed) : (decodeCmd c).wf p inp = true := by
  subst hsrc hseed
  obtain ⟨hsrc, hseed⟩ : operandExact p inp.srcBuf = true ∧ operandExact p inp.seedBuf = true := by
    simpa [Stimulus.wf] using h
  unfold decodeCmd
  split
  · rfl
  split
  · exact hseed
  split
  · rfl
  split
  · rfl
  split
  · exact hsrc
  split
  · rfl
  split <;> rfl

theorem quiet_wf : (Stimulus.cycle Inputs.quiet).wf p = true := by simp [Stimulus.wf, Inputs.quiet]

theorem cyclePorts_wf {xs : List Stimulus} (h : ∀ x ∈ xs, x.wf p = true) :
    (Stimulus.cycle (cyclePorts xs)).wf p = true := by
  rcases cyclePorts_mem xs with hq | hm
  · rw [hq]; exact quiet_wf
  · exact h _ hm

/-- A held command brings its own operands to the ports (R125). -/
theorem holdStimulus_wf {x : Stimulus} {inp : Inputs} (hx : x.wf p = true)
    (hi : (Stimulus.cycle inp).wf p = true) : (Stimulus.cycle (holdStimulus x inp)).wf p = true := by
  cases x with
  | tick _ | cycle _ => exact hi
  | command c src seed =>
    simp only [holdStimulus, holdCommand]
    split
    · exact hi
    · exact Bool.or_eq_true_iff.2 (.inl hx)

/-- The coming turn of well-formed stimuli: a clock cycle with well-formed ports, or a well-formed operation; what
remains is well-formed. -/
theorem nextTurn_wf {s : State} (hs : s.StimWf) :
    (∀ x ∈ (nextTurn s).rest, x.wf s.params = true) ∧
    ((∃ inp rest, nextTurn s = clockTurn s inp rest ∧ (Stimulus.cycle inp).wf s.params = true) ∨
      (∃ hook rest, nextTurn s = tickTurn hook rest ∧ hook.wf s.params = true) ∨
      ∃ c src seed rest, nextTurn s = commandTurn c src seed rest ∧
        (Stimulus.command c src seed).wf s.params = true) := by
  unfold State.StimWf at hs
  rcases nextTurn_cases s with ⟨inp, rest, hstim, ht⟩ | ⟨-, ht⟩ | ⟨x, rest, hstim, -, ht⟩ |
    ⟨hook, rest, hstim, -, ht⟩ | ⟨c, src, seed, rest, hstim, -, ht⟩ <;> rw [ht]
  · rw [hstim, List.forall_mem_cons] at hs
    exact ⟨hs.2, .inl ⟨inp, rest, rfl, hs.1⟩⟩
  · exact ⟨nofun, .inl ⟨_, _, rfl, quiet_wf⟩⟩
  · rw [hstim, List.forall_mem_cons] at hs
    obtain ⟨hx, hrest⟩ := hs
    exact ⟨List.forall_mem_cons.2 ⟨hx, fun y hy => hrest y (mem_of_mem_afterCycle hy)⟩,
      .inl ⟨_, _, rfl, holdStimulus_wf hx (cyclePorts_wf hrest)⟩⟩
  · rw [hstim, List.forall_mem_cons] at hs
    exact ⟨hs.2, .inr (.inl ⟨hook, rest, rfl, hs.1⟩)⟩
  · rw [hstim, List.forall_mem_cons] at hs
    exact ⟨hs.2, .inr (.inr ⟨c, src, seed, rest, rfl, hs.1⟩)⟩

end

section
variable {s t : State}

/-- A step leaves the parameters alone and the stimuli that its turn leaves. -/
theorem step_stim (h : step s = .next t) : t.params = s.params ∧ t.stim = (nextTurn s).rest := by
  cases step_form h with
  | rst inp rest turn level next => rw [next, turn]; exact ⟨rfl, rfl⟩
  | clock inp rest u turn level phase next =>
    obtain ⟨_, e, -⟩ := exec_effect phase
    rw [next, turn]
    exact ⟨e.params, e.stim⟩
  | tick hook rest turn idle run =>
    obtain ⟨_, e, -⟩ := exec_effect run
    rw [turn]
    exact ⟨e.params, e.stim⟩
  | command c src seed rest turn ready run =>
    obtain ⟨_, e, -⟩ := exec_effect run
    rw [turn]
    exact ⟨e.params, e.stim⟩

theorem step_keeps_stimWf (hs : s.StimWf) (h : step s = .next t) : t.StimWf := by
  obtain ⟨hparams, hstim⟩ := step_stim h
  unfold State.StimWf
  rw [hparams, hstim]
  exact (nextTurn_wf hs).1

/-- But for `rst`, a step keeps the block initialised (R55). -/
theorem step_keeps_initialised (hr : ¬s.RstTurn) (hd : s.Initialised) (h : step s = .next t) :
    t.Initialised :=
  have hkeep := cellsStayDefined s t hr h
  initialised_of_defined (step_stim h).1 (fun a => (hkeep a).2) (fun a => (hkeep a).1) hd

/-- Each form of the coming turn completes: `rst` always, the others as their instruction does. -/
theorem step_completes (hcol : s.col < s.params.cols) (hd : s.Initialised) (hs : s.StimWf) : SafeStep s := by
  rcases (nextTurn_wf hs).2 with ⟨inp, rest, ht, hw⟩ | ⟨hook, rest, ht, hw⟩ | ⟨c, src, seed, rest, ht, hw⟩
  · cases hr : inp.rst with
    | true => exact ⟨_, step_rst hr ht⟩
    | false =>
      obtain ⟨u, hu⟩ := exec_completes (s := present inp rest s) hcol hd (decodePhase_wf hw s.ph)
      exact ⟨_, (step_clock hr ht).trans (andThen_eq_next.2 ⟨u, hu, rfl⟩)⟩
  · obtain ⟨t, ht'⟩ := exec_completes (s := present { Inputs.quiet with hook := hook } rest s) (i := .tick)
      hcol hd hw
    exact ⟨t, (step_tick ht).trans ht'⟩
  · obtain ⟨t, ht'⟩ := exec_completes (s := present _ rest s) hcol hd (decodeCmd_wf hw
      { Inputs.quiet with cmdValid := true, cmd := c, srcBuf := src, seedBuf := seed } rfl rfl)
    exact ⟨t, (step_command ht).trans ht'⟩

end

/-! ## Runs of ticks with an idle Hook -/

/-- How many of the `n` row indices after `row` satisfy `q`: the rows that `n` ticks reach (R81, R89). -/
def countRows (q : Row → Bool) (row : Row) (n : Nat) : Nat :=
  match n with
  | 0 => 0
  | n + 1 => (q (row + 1)).toNat + countRows q (row + 1) n

theorem row_add_ofNat_succ (row : Row) (n : Nat) :
    row + BitVec.ofNat 3 (n + 1) = row + 1 + BitVec.ofNat 3 n := by
  rw [Nat.add_comm, BitVec.ofNat_add, BitVec.add_assoc]
  rfl

theorem countRows_add (q : Row → Bool) (row : Row) (m n : Nat) :
    countRows q row (m + n) = countRows q row m + countRows q (row + BitVec.ofNat 3 m) n := by
  induction m generalizing row with
  | zero => simp [countRows]
  | succ m ih =>
    rw [Nat.succ_add, countRows, ih, countRows, row_add_ofNat_succ, Nat.add_assoc]

theorem countRows_one (q : Row → Bool) (row : Row) : countRows q row 1 = (q (row + 1)).toNat := rfl

theorem countRows_eq_one (r row : Row) : countRows (· == r) row 1 = if row + 1 = r then 1 else 0 := by
  rw [countRows_one]
  split
  · next h => rw [h, beq_self_eq_true]; rfl
  · next h => rw [beq_false_of_ne h]; rfl

/-- A sweep brings the cursor back, so `k` sweeps count `k` times what one does (R89). -/
theorem countRows_sweeps {q : Row → Bool} {c : Nat} (h : ∀ row, countRows q row 8 = c) (k : Nat) (row : Row) :
    countRows q row (8 * k) = k * c := by
  induction k with
  | zero => simp [countRows]
  | succ k ih => rw [Nat.mul_succ, countRows_add, ih, h, Nat.succ_mul]

/-- A sweep reaches every row exactly once (R54). -/
theorem countRows_eq_sweep (r row : Row) : countRows (· == r) row 8 = 1 := by
  revert r row; decide

theorem countRows_isSync_sweep (row : Row) : countRows isSync row 8 = 1 := countRows_eq_sweep 7 row

theorem countRows_rendered_sweep (row : Row) : countRows (!isSync ·) row 8 = 7 := by
  revert row; decide

/-- What `n` taken ticks with an idle Hook do to the registers, to the memories and to the length of the trace. -/
structure Ticked (n : Nat) (s t : State) : Prop where
  params : t.params = s.params
  row : t.row = s.row + BitVec.ofNat 3 n
  fb : t.fb = s.fb
  frame : t.frame = (s.frame + countRows isSync s.row n) % 2 ^ s.params.fcw
  events : t.trace.length = s.trace.length + countRows (!isSync ·) s.row n * (5 + 4 * s.params.cols) +
    countRows isSync s.row n * 6
  rendered : ∀ (r : Row) (c ch : Nat) (a p : Byte), r ≠ 7 → c < s.params.cols → ch < 2 →
    s.acc.read (cellAddr s.params r.toNat c ch) = some a → s.fb.read (cellAddr s.params r.toNat c ch) = some p →
    ∃ b, t.acc.read (cellAddr s.params r.toNat c ch) = some b ∧
      b.toNat = (a.toNat + countRows (· == r) s.row n * p.toNat) % 256
  syncRow : ∀ c ch, c < s.params.cols → ch < 2 →
    t.acc.read (cellAddr s.params 7 c ch) = s.acc.read (cellAddr s.params 7 c ch)

section
variable {s t u : State}

theorem Ticked.refl (h : s.frame < 2 ^ s.params.fcw) : Ticked 0 s s where
  params := rfl
  row := by simp
  fb := rfl
  frame := (Nat.mod_eq_of_lt h).symm
  events := by simp [countRows]
  rendered r c ch a p _ _ _ ha _ := ⟨a, ha, by simp [countRows, Nat.mod_eq_of_lt a.isLt]⟩
  syncRow _ _ _ _ := rfl

theorem Ticked.trans {m n : Nat} (h : Ticked m s u) (k : Ticked n u t) : Ticked (m + n) s t where
  params := k.params.trans h.params
  row := by rw [k.row, h.row, BitVec.ofNat_add, BitVec.add_assoc]
  fb := k.fb.trans h.fb
  frame := by rw [k.frame, h.frame, h.row, h.params, Nat.mod_add_mod, countRows_add, Nat.add_assoc]
  events := by
    rw [k.events, h.events, h.row, h.params, countRows_add, countRows_add, Nat.add_mul, Nat.add_mul]
    omega
  rendered r c ch a p hr hc hch ha hp := by
    obtain ⟨b, hb, hbv⟩ := h.rendered r c ch a p hr hc hch ha hp
    obtain ⟨d, hd, hdv⟩ := k.rendered r c ch b p hr (h.params ▸ hc) hch (h.params ▸ hb)
      (by rw [h.params, h.fb]; exact hp)
    refine ⟨d, h.params ▸ hd, ?_⟩
    rw [hdv, hbv, h.row, Nat.mod_add_mod, countRows_add, Nat.add_mul, Nat.add_assoc]
  syncRow c ch hc hch := by
    have hk := k.syncRow c ch (h.params ▸ hc) hch
    rw [h.params] at hk
    exact hk.trans (h.syncRow c ch hc hch)

/-- Cells of different rows have different addresses, on the side that `Rendered.others` asks for (R41). -/
theorem cellAddr_outside_row {p : Params} {r r' c ch : Nat} (hr : r ≠ r') (hc : c < p.cols) (hch : ch < 2) :
    cellAddr p r c ch < cellAddr p r' 0 0 ∨ cellAddr p r' 0 0 + 2 * p.cols ≤ cellAddr p r c ch := by
  obtain ⟨hlow, hhigh⟩ := cellAddr_row (r := r) hc hch
  unfold cellAddr at *
  rcases Nat.lt_or_gt_of_ne hr with h | h
  · have := Nat.mul_le_mul_right p.cols (show r + 1 ≤ r' from h)
    rw [Nat.succ_mul] at this
    omega
  · have := Nat.mul_le_mul_right p.cols (show r' + 1 ≤ r from h)
    rw [Nat.succ_mul] at this
    omega

/-- The state in which a tick's branch is taken, written out (R81, R88). -/
theorem afterHeader_eq (s : State) :
    afterHeader s = { s with
      row := s.row + 1
      pins := { s.pins with
        lat := false, a0 := (s.row + 1).getLsbD 0, a1 := (s.row + 1).getLsbD 1, a2 := (s.row + 1).getLsbD 2 }
      trace := s.trace ++ headerEvents (s.row + 1) } :=
  header_eq (advanceRow s)

theorem headerEvents_length (r : Row) : (headerEvents r).length = 5 := rfl

/-- Each column has four events (R101). -/
theorem columns_events_length (A P : Nat → Nat → Byte) (c n : Nat) :
    ((List.range' c n).flatMap (columnEvents A P)).length = 4 * n := by
  simp [columnEvents, Nat.mul_comm]

/-- A sync tick whose Hook issues nothing and returns (R85, R86). -/
theorem tickBody_sync_idle (h7 : s.row + 1 = 7) (hook : s.inp.hook = HookRun.idle) :
    tickBody s = .next { afterHeader s with
      frame := (s.frame + 1) % 2 ^ s.params.fcw, trace := (afterHeader s).trace ++ [.sync s.frame] } := by
  have hook' : (afterHeader s).inp.hook = HookRun.idle := by rw [afterHeader_eq]; exact hook
  rw [tickBody_sync h7, syncTick_eq_next]
  refine ⟨by rw [hook']; nofun, ?_⟩
  rw [hook', afterHeader_eq]
  rfl

/-- A sync tick with an idle Hook is a run of one tick: it visits no cell (R90). -/
theorem ticked_sync (h7 : s.row + 1 = 7) (hook : s.inp.hook = HookRun.idle)
    (hx : tickBody s = .next t) : Ticked 1 s t := by
  rw [tickBody_sync_idle h7 hook, afterHeader_eq] at hx
  cases hx
  have hsync : countRows isSync s.row 1 = 1 := by rw [countRows_one, isSync_iff.2 h7]; rfl
  have hrendered : countRows (!isSync ·) s.row 1 = 0 := by rw [countRows_one, isSync_iff.2 h7]; rfl
  constructor
  case params | fb => rfl
  case row => rfl
  case frame => rw [hsync]
  case events =>
    rw [hsync, hrendered, List.length_append, List.length_append, headerEvents_length, List.length_singleton]
    omega
  case rendered =>
    intro r c ch a p hr _ _ ha _
    have hvisits : countRows (· == r) s.row 1 = 0 := by rw [countRows_eq_one, h7, if_neg hr.symm]
    exact ⟨a, ha, by simp [hvisits, Nat.mod_eq_of_lt a.isLt]⟩
  case syncRow => exact fun _ _ _ _ => rfl

/-- A render tick is a run of one tick: it visits the cells of its row and no other (R90, R105). -/
theorem ticked_render (hf : s.frame < 2 ^ s.params.fcw) (h7 : s.row + 1 ≠ 7) (hx : tickBody s = .next t) :
    Ticked 1 s t := by
  rw [tickBody_render h7] at hx
  obtain ⟨A, P, hold, done⟩ := render_next hx
  have hnot : isSync (s.row + 1) = false := Bool.eq_false_iff.2 fun h => h7 (isSync_iff.1 h)
  have hsync : countRows isSync s.row 1 = 0 := by rw [countRows_one, hnot]; rfl
  have hrendered : countRows (!isSync ·) s.row 1 = 1 := by rw [countRows_one, hnot]; rfl
  have others : ∀ r c ch, r ≠ (s.row + 1).toNat → c < s.params.cols → ch < 2 →
      t.acc.read (cellAddr s.params r c ch) = s.acc.read (cellAddr s.params r c ch) :=
    fun r c ch hr hc hch => done.others _ (cellAddr_outside_row hr hc hch)
  constructor
  case params | fb => rw [done.frame]; rfl
  case row => rw [done.frame]; rfl
  case frame => rw [done.frame, hsync]; exact (Nat.mod_eq_of_lt hf).symm
  case events =>
    have hheader : (afterHeader s).trace.length = s.trace.length + 5 := by
      rw [afterHeader_eq, List.length_append, headerEvents_length]
    have hcols : (afterHeader s).params = s.params := rfl
    rw [done.trace, hsync, hrendered, List.length_append, hheader, columns_events_length, hcols]
    omega
  case rendered =>
    intro r c ch a p hr hc hch ha hp
    by_cases hrow : s.row + 1 = r
    · subst hrow
      have hrange : c < 0 + s.params.cols := by omega
      obtain ⟨hA, hP⟩ := hold c ch (Nat.zero_le c) hrange hch
      obtain rfl : A c ch = a := Option.some.inj (hA.symm.trans ha)
      obtain rfl : P c ch = p := Option.some.inj (hP.symm.trans hp)
      have hvisits : countRows (· == s.row + 1) s.row 1 = 1 := by rw [countRows_eq_one, if_pos rfl]
      exact ⟨_, done.visited c ch (Nat.zero_le c) hrange hch, by rw [hvisits]; simp [dueResidual]⟩
    · have hvisits : countRows (· == r) s.row 1 = 0 := by rw [countRows_eq_one, if_neg hrow]
      refine ⟨a, ?_, by simp [hvisits, Nat.mod_eq_of_lt a.isLt]⟩
      rw [others r.toNat c ch (fun h => hrow (BitVec.eq_of_toNat_eq h.symm)) hc hch]
      exact ha
  case syncRow =>
    exact fun c ch hc hch => others 7 c ch (fun h => h7 (BitVec.eq_of_toNat_eq h.symm)) hc hch

theorem idle_wf (p : Params) : HookRun.idle.wf p = true := rfl

/-- An enabled tick whose Hook is idle is a run of one tick, whatever row it reaches. -/
theorem ticked_one (hf : s.frame < 2 ^ s.params.fcw) (hrun : s.run = true) (hook : s.inp.hook = HookRun.idle)
    (hx : exec .tick s = .next t) : Ticked 1 s t ∧ t.ph = s.ph ∧ t.run = s.run := by
  rw [exec_tick_enabled hrun] at hx
  by_cases h7 : s.row + 1 = 7
  · refine ⟨ticked_sync h7 hook hx, ?_⟩
    rw [tickBody_sync_idle h7 hook, afterHeader_eq] at hx
    cases hx
    exact ⟨rfl, rfl⟩
  · refine ⟨ticked_render hf h7 hx, ?_⟩
    obtain ⟨-, -, run, -, -, -, -, ⟨h, -⟩ | ⟨-, ph, -⟩⟩ := tickBody_effect hx
    · exact absurd h h7
    · exact ⟨ph, run⟩

/-- What a run of ticks with an idle Hook needs of the state, and keeps. -/
structure Ticking (s : State) : Prop where
  inv : s.Inv
  initialised : s.Initialised
  idle : s.ph = codeIdle
  run : s.run = true

/-- The step that takes a presented tick with an idle Hook. -/
theorem step_ticked (h : Ticking s) {rest : List Stimulus} (hstim : s.stim = .tick HookRun.idle :: rest) :
    ∃ t, step s = .next t ∧ Ticking t ∧ t.stim = rest ∧ Ticked 1 s t := by
  have turn : nextTurn s = tickTurn HookRun.idle rest := by simp [nextTurn, hstim, h.idle]
  have notRst : ¬s.RstTurn := by simp [State.RstTurn, turn, tickTurn]
  obtain ⟨t, ht⟩ := exec_completes (s := present { Inputs.quiet with hook := HookRun.idle } rest s) (i := .tick)
    h.inv.col h.initialised (idle_wf _)
  have hstep : step s = .next t := (step_tick turn).trans ht
  obtain ⟨ticked, hph, hrun⟩ := ticked_one (s := present _ rest s) h.inv.frame h.run rfl ht
  refine ⟨t, hstep, ?_, ?_, { ticked with }⟩
  · exact
      { inv := everyStepKeepsTheInvariant s t h.inv hstep
        initialised := step_keeps_initialised notRst h.initialised hstep
        idle := hph.trans h.idle
        run := hrun.trans h.run }
  · rw [(step_stim hstep).2, turn]; rfl

/-- A run of presented ticks with an idle Hook completes. -/
theorem runSteps_ticked (n : Nat) (s : State) (h : Ticking s) {rest : List Stimulus}
    (hstim : s.stim = ticks n HookRun.idle ++ rest) :
    ∃ t, runSteps n s = .next t ∧ t.stim = rest ∧ Ticked n s t := by
  induction n generalizing s with
  | zero => exact ⟨s, rfl, hstim, .refl h.inv.frame⟩
  | succ n ih =>
    obtain ⟨u, hu, hticking, hustim, one⟩ := step_ticked h hstim
    obtain ⟨t, ht, htstim, done⟩ := ih u hticking hustim
    refine ⟨t, ?_, htstim, Nat.add_comm n 1 ▸ one.trans done⟩
    rw [runSteps, hu]
    exact ht

end

/-! ## A visit, by what its two reads answer -/

section
variable {s : State} {c ch : Nat} {f : Fault} {av pv : Byte}

theorem readCell_uninitialised {sp : Space} {a : Nat} (ha : a < s.cells) (h : (s.space sp).read a = none) :
    readCell sp a s = .error (.uninitialisedRead sp a) := by
  simp only [readCell, if_pos ha, h]

theorem ditherTo_accFault (h : readCell .acc (cellAddr s.params s.row.toNat c ch) s = .error f) (pin : Pin) :
    ditherTo pin c ch s = .fault f := by
  simp only [ditherTo, dither, h]

theorem ditherTo_fbFault (ha : readCell .acc (cellAddr s.params s.row.toNat c ch) s = .ok av)
    (hp : readCell .fb (cellAddr s.params s.row.toNat c ch) s = .error f) (pin : Pin) :
    ditherTo pin c ch s = .fault f := by
  simp only [ditherTo, dither, ha, hp]

theorem ditherTo_ok (ha : readCell .acc (cellAddr s.params s.row.toNat c ch) s = .ok av)
    (hp : readCell .fb (cellAddr s.params s.row.toNat c ch) s = .ok pv) (pin : Pin) :
    ditherTo pin c ch s = .next (emit pin (dueBit av pv)
      (storeAcc (cellAddr s.params s.row.toNat c ch) (dueResidual av pv) s)) := by
  obtain ⟨hlt, hav⟩ := readCell_eq_ok.1 ha
  exact ditherTo_eq_next.2 ⟨hlt, av, pv, hav, (readCell_eq_ok.1 hp).2, rfl⟩

/-- A lane whose accumulator cell holds no value faults on it (R55; log 7). -/
theorem ditherTo_uninitialised_acc (hc : c < s.params.cols) (hch : ch < 2)
    (h : s.acc.read (cellAddr s.params s.row.toNat c ch) = none) (pin : Pin) :
    ditherTo pin c ch s = .fault (.uninitialisedRead .acc (cellAddr s.params s.row.toNat c ch)) :=
  ditherTo_accFault (readCell_uninitialised (cellAddr_lt (row_lt s.row) hc hch) h) pin

/-- A lane whose framebuffer cell holds no value faults on it, after it has read the accumulator (R55; log 7). -/
theorem ditherTo_uninitialised_fb (hc : c < s.params.cols) (hch : ch < 2)
    (ha : (s.acc.read (cellAddr s.params s.row.toNat c ch)).isSome)
    (h : s.fb.read (cellAddr s.params s.row.toNat c ch) = none) (pin : Pin) :
    ditherTo pin c ch s = .fault (.uninitialisedRead .fb (cellAddr s.params s.row.toNat c ch)) := by
  have hlt : cellAddr s.params s.row.toNat c ch < s.cells := cellAddr_lt (row_lt s.row) hc hch
  obtain ⟨av, hav⟩ := Option.isSome_iff_exists.1 ha
  exact ditherTo_fbFault (readCell_eq_ok.2 ⟨hlt, hav⟩) (readCell_uninitialised hlt h) pin

theorem execPhRed_fault (h : ditherTo .dr s.col chRed s = .fault f) : exec .phRed s = .fault f := by
  simp only [exec, execPhRed, h, andThen_fault]

theorem execPhGrn_fault (h : ditherTo .dg s.col chGreen s = .fault f) : exec .phGrn s = .fault f := by
  simp only [exec, execPhGrn, h, andThen_fault]

/-- A rendering whose first accumulator cell holds no value faults on it. -/
theorem render_uninitialised_acc (hcols : 1 ≤ s.params.cols)
    (h : s.acc.read (cellAddr s.params s.row.toNat 0 0) = none) :
    render s = .fault (.uninitialisedRead .acc (cellAddr s.params s.row.toNat 0 0)) := by
  obtain ⟨n, hn⟩ : ∃ n, s.params.cols = n + 1 := Nat.exists_eq_add_of_le' hcols
  have hlane : ditherTo .dr 0 chRed (emit .sclk false s) = _ :=
    ditherTo_uninitialised_acc (s := emit .sclk false s) hcols (by decide) h .dr
  rw [render, hn, columnsFrom, column, hlane]
  rfl

end

/-! ## What a tick reads of the framebuffer (R49) -/

/-- The state with other contents in the framebuffer. -/
def withFb (m : Memory) (s : State) : State := { s with fb := m }

/-- An outcome with other contents in the framebuffer of its next state, if it has one. -/
def outcomeWithFb (m : Memory) (o : Result) : Result := andThen o fun t => .next (withFb m t)

section
variable {s : State} {m : Memory}

/-- A sequence carries other contents through when its second part does. -/
theorem andThen_outcomeWithFb {o : Result} {k : State → Result}
    (h : ∀ t, o = .next t → k (withFb m t) = outcomeWithFb m (k t)) :
    andThen (outcomeWithFb m o) k = outcomeWithFb m (andThen o k) := by
  cases o with
  | next t => exact h t rfl
  | fault f => rfl
  | refused r => rfl

/-- The framebuffer reads alike in `m` on the row that the cursor selects. -/
def RowReads (m : Memory) (s : State) : Prop :=
  ∀ c ch, c < s.params.cols → ch < 2 →
    s.fb.read (cellAddr s.params s.row.toNat c ch) = m.read (cellAddr s.params s.row.toNat c ch)

/-- A visit sees of the framebuffer only its own cell. -/
theorem ditherTo_withFb (h : RowReads m s) {c ch : Nat} (hc : c < s.params.cols) (hch : ch < 2) (pin : Pin) :
    ditherTo pin c ch (withFb m s) = outcomeWithFb m (ditherTo pin c ch s) := by
  have hfb : readCell .fb (cellAddr s.params s.row.toNat c ch) (withFb m s) =
      readCell .fb (cellAddr s.params s.row.toNat c ch) s := by
    unfold readCell
    rw [space_fb, space_fb, h c ch hc hch]
    rfl
  cases hav : readCell .acc (cellAddr s.params s.row.toNat c ch) s with
  | error f =>
    rw [ditherTo_accFault hav, ditherTo_accFault (s := withFb m s) hav]
    rfl
  | ok av =>
    cases hpv : readCell .fb (cellAddr s.params s.row.toNat c ch) s with
    | error f =>
      rw [ditherTo_fbFault hav hpv, ditherTo_fbFault (s := withFb m s) hav (hfb.trans hpv)]
      rfl
    | ok pv =>
      rw [ditherTo_ok hav hpv, ditherTo_ok (s := withFb m s) hav (hfb.trans hpv)]
      rfl

theorem column_withFb (h : RowReads m s) {c : Nat} (hc : c < s.params.cols) :
    column c (withFb m s) = outcomeWithFb m (column c s) := by
  have hred : ditherTo .dr c chRed (emit .sclk false (withFb m s)) =
      outcomeWithFb m (ditherTo .dr c chRed (emit .sclk false s)) :=
    ditherTo_withFb (s := emit .sclk false s) h hc (by decide) .dr
  unfold column
  rw [hred]
  refine andThen_outcomeWithFb fun t ht => ?_
  obtain ⟨-, -, frame⟩ := eff_ditherTo ht
  have hgreen : ditherTo .dg c chGreen (withFb m t) = outcomeWithFb m (ditherTo .dg c chGreen t) := by
    rw [frame]
    exact ditherTo_withFb (s := { emit .sclk false s with acc := t.acc, pins := t.pins, trace := t.trace }) h hc
      (by decide) .dg
  rw [hgreen]
  exact andThen_outcomeWithFb fun _ _ => rfl

theorem columnsFrom_withFb (n c : Nat) (h : RowReads m s) (hc : c + n ≤ s.params.cols) :
    columnsFrom c n (withFb m s) = outcomeWithFb m (columnsFrom c n s) := by
  induction n generalizing c s with
  | zero => rfl
  | succ n ih =>
    rw [columnsFrom, columnsFrom, column_withFb h (by omega)]
    refine andThen_outcomeWithFb fun t ht => ?_
    obtain ⟨-, -, frame⟩ := eff_column ht
    rw [frame]
    exact ih (c + 1) h (by simp only; omega)

theorem render_withFb (h : RowReads m s) : render (withFb m s) = outcomeWithFb m (render s) :=
  columnsFrom_withFb s.params.cols 0 h (by omega)

/-- The sync branch reads nothing of the framebuffer, and writes it only for a SETFRAME. -/
theorem syncTick_withFb (h : s.inp.hook.frames = []) : syncTick (withFb m s) = outcomeWithFb m (syncTick s) := by
  have hs : syncTick s = .next (afterHook s.inp.hook.returns (emitSync s)) := by
    unfold syncTick; rw [h]; rfl
  have hm : syncTick (withFb m s) = .next (afterHook s.inp.hook.returns (emitSync (withFb m s))) := by
    unfold syncTick; rw [show (withFb m s).inp.hook.frames = [] from h]; rfl
  rw [hs, hm]
  unfold afterHook
  split <;> rfl

/-- The rows below the sync row lie below address `14 * COLS` (R41). -/
theorem cellAddr_lt_syncRow {p : Params} {r c ch : Nat} (hr : r < 7) (hc : c < p.cols) (hch : ch < 2) :
    cellAddr p r c ch < 14 * p.cols := by
  have : r * p.cols ≤ 6 * p.cols := Nat.mul_le_mul_right _ (by omega)
  unfold cellAddr
  omega

theorem row_succ_ne_seven {r : Row} (h : r ≠ 6) : r + 1 ≠ 7 := by
  revert r; decide

theorem toNat_lt_seven {r : Row} (h : r ≠ 7) : r.toNat < 7 := by
  have hne : r.toNat ≠ 7 := fun e => h (BitVec.eq_of_toNat_eq e)
  have := row_lt r
  omega

theorem tickBody_withFb (hook : s.inp.hook.frames = [])
    (h : ∀ a, a < 14 * s.params.cols → s.fb.read a = m.read a) :
    tickBody (withFb m s) = outcomeWithFb m (tickBody s) := by
  have hheader : afterHeader (withFb m s) = withFb m (afterHeader s) := rfl
  by_cases h7 : s.row + 1 = 7
  · rw [tickBody_sync h7, tickBody_sync (s := withFb m s) h7, hheader]
    exact syncTick_withFb hook
  · rw [tickBody_render h7, tickBody_render (s := withFb m s) h7, hheader]
    exact render_withFb fun c ch hc hch => h _ (cellAddr_lt_syncRow (toNat_lt_seven h7) hc hch)

end

/-! ## The statements of the family -/

/-- Settles O40: the coming turn completes, whatever its form, and keeps what made it complete. -/
theorem initialisedBlockNeverStops : Obligations.InitialisedBlockNeverStops := by
  unfold Obligations.InitialisedBlockNeverStops
  intro s hinv hd hs
  obtain ⟨t, ht⟩ := step_completes hinv.col hd hs
  refine ⟨t, ht, step_keeps_stimWf hs ht, ?_⟩
  by_cases hr : s.RstTurn
  · exact .inl hr
  · exact .inr (step_keeps_initialised hr hd ht)

/-- Settles O45: a sweep reaches every row once, so the `8 * k` ticks count each row `k` times. -/
theorem sweepsVisitEveryRenderedCell : Obligations.SweepsVisitEveryRenderedCell := by
  unfold Obligations.SweepsVisitEveryRenderedCell
  intro k s rest hinv hd idle hrun hstim
  obtain ⟨t, ht, hrest, done⟩ := runSteps_ticked (8 * k) s ⟨hinv, hd, idle, hrun⟩ hstim
  have hsync := countRows_sweeps countRows_isSync_sweep k s.row
  have hrendered := countRows_sweeps countRows_rendered_sweep k s.row
  refine ⟨t, ht, hrest, ?_, done.fb, ?_, ?_, ?_, done.syncRow⟩
  · have hsweeps : BitVec.ofNat 3 (8 * k) = 0#3 := BitVec.eq_of_toNat_eq (by simp)
    rw [done.row, hsweeps, BitVec.add_zero]
  · rw [done.frame, hsync, Nat.mul_one]
  · rw [done.events, hsync, hrendered]
    ring
  · intro r c ch a p hr hc hch ha hp
    have hnat : (BitVec.ofNat 3 r : Row).toNat = r := by
      rw [BitVec.toNat_ofNat]
      exact Nat.mod_eq_of_lt (by omega)
    have hne : (BitVec.ofNat 3 r : Row) ≠ 7 := fun h => by
      have h7 : r = 7 := hnat.symm.trans (congrArg BitVec.toNat h)
      omega
    have hcell := done.rendered (BitVec.ofNat 3 r) c ch a p hne hc hch
    rw [hnat, countRows_sweeps (countRows_eq_sweep _), Nat.mul_one] at hcell
    exact hcell ha hp

/-- Settles O27: the sync tick reads no cell, and every rendered row lies below row 7's first cell. -/
theorem rowSevenOfTheFrameIsNeverRead : Obligations.RowSevenOfTheFrameIsNeverRead := by
  unfold Obligations.RowSevenOfTheFrameIsNeverRead
  intro s m hook h
  show exec .tick (withFb m s) = outcomeWithFb m (exec .tick s)
  by_cases hrun : s.run = true
  · rw [exec_tick_enabled hrun, exec_tick_enabled (s := withFb m s) hrun]
    exact tickBody_withFb hook h
  · rw [exec_tick_disabled hrun, exec_tick_disabled (s := withFb m s) hrun]
    rfl

/-- Settles O19: SETFRAME's copy, read at the two addresses of the cell. -/
theorem setframePlacesPixelsRowMajor : Obligations.SetframePlacesPixelsRowMajor := by
  unfold Obligations.SetframePlacesPixelsRowMajor
  intro s r c red green hlen hr hc hred hgreen
  refine ⟨_, loadFrame_eq_next.2 ⟨hlen, rfl⟩, ?_⟩
  have hread : ∀ ch, ch < 2 → (fillFb (s.inp.srcBuf.take s.cells) s).fb.read (cellAddr s.params r c ch) =
      s.inp.srcBuf[2 * (r * s.params.cols + c) + ch]? := fun ch hch => by
    have hlt : cellAddr s.params r c ch < s.cells := cellAddr_lt hr hc hch
    rw [read_fillFb_take hlen, if_pos hlt, cellAddr, Nat.mul_comm 2]
  simp only [pixelAt, hread chRed (by decide), hread chGreen (by decide)]
  simp only [chRed, chGreen, Nat.add_zero, hred, hgreen]

/-- Settles O21: each of the three uses of an operand measures it first. -/
theorem shortOperandsAreRefused : Obligations.ShortOperandsAreRefused := by
  unfold Obligations.ShortOperandsAreRefused
  intro s
  refine ⟨fun hshort => ?_, fun hshort => ?_, fun hrun hrow hshort => ?_⟩
  · have hinit : loadInit s = .refused (.shortOperand .seedBuf) := withOperand_short hshort _
    refine ⟨hinit, fun hv hc => ?_⟩
    have haccept : acceptIn codeIdle s.inp = true := acceptIn_iff.2 ⟨hv, .inl rfl⟩
    simp only [exec, execPhIdle, if_pos haccept, execCmd, hc]
    exact hinit
  · have hframe : loadFrame s.inp.srcBuf s = .refused (.shortOperand .srcBuf) := withOperand_short hshort _
    refine ⟨hframe, fun hv hc => ⟨?_, ?_⟩⟩
    · have haccept : acceptIn codeIdle s.inp = true := acceptIn_iff.2 ⟨hv, .inl rfl⟩
      simp only [exec, execPhIdle, if_pos haccept, execCmd, hc]
      exact hframe
    · have haccept : acceptIn codeSyncWait s.inp = true := acceptIn_iff.2 ⟨hv, .inr ⟨rfl, hc⟩⟩
      simp only [exec, execPhSyncWait, if_pos haccept, hframe, andThen_refused]
  · have h7 : s.row + 1 = 7 := by rw [hrow]; rfl
    have hhook : runHook (afterHeader s).inp.hook.frames (emitSync (afterHeader s)) =
        .refused (.shortOperand .srcBuf) := runHook_short hshort
    rw [exec_tick_enabled hrun, tickBody_sync h7, syncTick, hhook, andThen_refused]

/-- Settles O33: both lanes and the first column of a render tick visit their cell by `ditherTo`. -/
theorem uninitialisedVisitFaults : Obligations.UninitialisedVisitFaults := by
  unfold Obligations.UninitialisedVisitFaults
  intro s
  refine ⟨fun hcol => ⟨fun h => ?_, fun h => ?_, fun ha h => ?_, fun ha h => ?_⟩, fun hrun hrow hcols h => ?_⟩
  · exact execPhRed_fault (ditherTo_uninitialised_acc hcol (show chRed < 2 by decide) h .dr)
  · exact execPhGrn_fault (ditherTo_uninitialised_acc hcol (show chGreen < 2 by decide) h .dg)
  · exact execPhRed_fault (ditherTo_uninitialised_fb hcol (show chRed < 2 by decide) ha h .dr)
  · exact execPhGrn_fault (ditherTo_uninitialised_fb hcol (show chGreen < 2 by decide) ha h .dg)
  · rw [exec_tick_enabled hrun, tickBody_render (row_succ_ne_seven hrow)]
    exact render_uninitialised_acc (s := afterHeader s) hcols h

end Sys2Proof.Machine
end

-- ==== Proofs of the family 30_encoding ====
section
/-! PROOFS of the family 30_encoding: the decoder and the encoder are inverse to each other (R60, R65, R68, R70 to
R72), a step runs what its code stands for (R93, R125), and the operand of SETFRAME (R66, R124). -/

namespace Sys2Proof.Machine

/-! ## The decoder and the encoder -/

/-- Decoding takes back every encoding; in a reserved phase code the payload is the low two bits (R72). -/
theorem decode_encode (i : Instr) : decode (encode i) = .ok i := by
  cases i with
  | phReserved x => revert x; decide
  | _ => rfl

/-- No encoding sets a bit that its port does not have (R60). -/
theorem encode_wf (i : Instr) : (encode i).wf = true := by
  cases i with
  | phReserved x => exact Laws.CodeFits.phReserved x
  | _ => rfl

theorem encode_decodeCmd (c : BitVec 3) : encode (decodeCmd c) = ⟨.cmd, c.setWidth 4⟩ := by
  revert c; decide

theorem encode_decodePhase (p : BitVec 4) : encode (decodePhase p) = ⟨.phase, p⟩ := by
  revert p; decide

/-- A word of the command port without a stray bit is its low three bits, widened. -/
theorem setWidth_setWidth_of_noStrayBit {b : BitVec 4} (h : ¬b.getLsbD 3 = true) :
    (b.setWidth 3).setWidth 4 = b := by
  revert b; decide

/-- What decodes, by format: the strobe at level 1 (R68), a three-bit command word (R65, R71), or any phase code
(R70, R72). -/
theorem decode_eq_ok_iff {c : Code} {i : Instr} :
    decode c = .ok i ↔
      c = ⟨.strobe, 1#4⟩ ∧ i = .tick ∨
      (∃ w : BitVec 3, c = ⟨.cmd, w.setWidth 4⟩ ∧ i = decodeCmd w) ∨
      ∃ p, c = ⟨.phase, p⟩ ∧ i = decodePhase p := by
  constructor
  · intro h
    obtain ⟨format, b⟩ := c
    cases format with
    | strobe =>
      simp only [decode] at h
      split at h
      · next hb => cases h; exact .inl ⟨by rw [hb], rfl⟩
      · split at h <;> cases h
    | cmd =>
      simp only [decode] at h
      split at h
      · cases h
      · next hb => cases h; exact .inr (.inl ⟨_, by rw [setWidth_setWidth_of_noStrayBit hb], rfl⟩)
    | phase => cases h; exact .inr (.inr ⟨b, rfl, rfl⟩)
  · rintro (⟨rfl, rfl⟩ | ⟨w, rfl, rfl⟩ | ⟨p, rfl, rfl⟩)
    · exact decode_strobe
    · exact decode_command w
    · exact decode_phase p

/-! ## The turn of an operation that is ready -/

theorem nextTurn_tick {s : State} {hook : HookRun} {rest : List Stimulus} (hstim : s.stim = .tick hook :: rest)
    (idle : s.ph = codeIdle) : nextTurn s = tickTurn hook rest := by
  simp [nextTurn, hstim, idle]

theorem nextTurn_command {s : State} {c : BitVec 3} {src seed : List Byte} {rest : List Stimulus}
    (hstim : s.stim = .command c src seed :: rest) (ready : cmdReady s.ph c = true) :
    nextTurn s = commandTurn c src seed rest := by
  simp [nextTurn, hstim, ready]

/-! ## Instructions without an effect of their own -/

theorem exec_nop (s : State) : exec .nop s = .next s := rfl
theorem exec_reservedCmd5 (s : State) : exec .reservedCmd5 s = .next s := rfl
theorem exec_reservedCmd6 (s : State) : exec .reservedCmd6 s = .next s := rfl
theorem exec_reservedCmd7 (s : State) : exec .reservedCmd7 s = .next s := rfl
theorem exec_phReserved (x : BitVec 2) (s : State) : exec (.phReserved x) s = .next (setPh codeIdle s) := rfl

/-! ## The statements of the family -/

/-- Settles O18: SETFRAME with a long enough operand is one run of writes from address 0 on. -/
theorem setframeReplacesTheFrame : Obligations.SetframeReplacesTheFrame := by
  unfold Obligations.SetframeReplacesTheFrame
  intro s hlen
  exact ⟨_, loadFrame_eq_next.2 ⟨hlen, rfl⟩, rfl, read_fillFb_take hlen⟩

/-- Settles O1: the round trip and the width of the code, one case per constructor. -/
theorem encodedInstructionDecodes : Obligations.EncodedInstructionDecodes := by
  unfold Obligations.EncodedInstructionDecodes
  exact fun i => ⟨decode_encode i, encode_wf i⟩

/-- Settles O2: each of the three forms of a code that decodes is an encoding. -/
theorem decodedCodeIsItsEncoding : Obligations.DecodedCodeIsItsEncoding := by
  unfold Obligations.DecodedCodeIsItsEncoding
  intro c i h
  obtain ⟨rfl, rfl⟩ | ⟨w, rfl, rfl⟩ | ⟨p, rfl, rfl⟩ := decode_eq_ok_iff.1 h
  · rfl
  · exact encode_decodeCmd w
  · exact encode_decodePhase p

/-- Settles O3: the word of each row of the tables is the encoding of the row's instruction. -/
theorem specCodesDecode : Obligations.SpecCodesDecode := by
  unfold Obligations.SpecCodesDecode
  exact ⟨decode_encode .tick,
    decode_encode .nop, decode_encode .init, decode_encode .enable, decode_encode .disable,
    decode_encode .setframe, decode_encode .reservedCmd5, decode_encode .reservedCmd6,
    decode_encode .reservedCmd7,
    decode_encode .phIdle, decode_encode .phLatHi, decode_encode .phAddr0, decode_encode .phAddr1,
    decode_encode .phAddr2, decode_encode .phLatLo, decode_encode .phSyncReq, decode_encode .phSyncWait,
    decode_encode .phClkLo, decode_encode .phRed, decode_encode .phGrn, decode_encode .phClkHi,
    decode_encode (.phReserved 0b00#2), decode_encode (.phReserved 0b01#2),
    decode_encode (.phReserved 0b10#2), decode_encode (.phReserved 0b11#2)⟩

/-- Settles O4: a turn carries the phase register, the strobe at level 1, or a three-bit command word. -/
theorem everyFetchedCodeDecodes : Obligations.EveryFetchedCodeDecodes := by
  unfold Obligations.EveryFetchedCodeDecodes
  intro s
  obtain ⟨inp, rest, turn⟩ | ⟨hook, rest, -, -, turn⟩ | ⟨c, src, seed, rest, -, -, turn⟩ :=
    nextTurn_clock_or_op s <;> rw [turn]
  · exact ⟨_, decode_phase s.ph⟩
  · exact ⟨_, decode_strobe⟩
  · exact ⟨_, decode_command c⟩

/-- Settles O6: in IDLE the presented tick is the turn, and its code is the strobe at level 1. -/
theorem tickStrobeRunsTick : Obligations.TickStrobeRunsTick := by
  unfold Obligations.TickStrobeRunsTick
  exact fun s hook rest hstim idle => step_tick (nextTurn_tick hstim idle)

/-- Settles O7: the phases and commands it lists are R125's readiness. -/
theorem readyCommandRunsItsOperation : Obligations.ReadyCommandRunsItsOperation := by
  unfold Obligations.ReadyCommandRunsItsOperation
  intro s c src seed rest i hstim hdecode hready
  have hi : decodeCmd c = i := Except.ok.inj ((decode_command c).symm.trans hdecode)
  rw [← hi]
  exact step_command (nextTurn_command hstim (cmdReady_iff.2 hready))

/-- Settles O15: each of the four meanings answers the state it was given. -/
theorem nopAndReservedCommandsChangeNothing : Obligations.NopAndReservedCommandsChangeNothing := by
  unfold Obligations.NopAndReservedCommandsChangeNothing
  exact fun s => ⟨exec_nop s, exec_reservedCmd5 s, exec_reservedCmd6 s, exec_reservedCmd7 s⟩

/-- Settles O36: the phase register is the one field that the phase rule writes. -/
theorem reservedPhaseGoesIdle : Obligations.ReservedPhaseGoesIdle := by
  unfold Obligations.ReservedPhaseGoesIdle
  exact fun s x => exec_phReserved x s

end Sys2Proof.Machine
end

-- ==== Proofs of the family 40_row_scanner ====
section
/-! PROOFS of the family 40_row_scanner: what a tick does on each of its branches (R80 to R92), what a run of ticks
does to the cursor, the frame counter and the Hook's arguments (R86, R89), and how operations wait for the sequencer
(R93, R125). -/

namespace Sys2Proof.Machine

/-! ## The two branches of a taken tick -/

section
variable {s t : State}

/-- A sync tick with long enough operands, up to the Hook's return (R85, R92). -/
theorem exec_tick_sync (hrun : s.run = true) (h7 : s.row + 1 = 7)
    (hlong : ∀ b ∈ s.inp.hook.frames, s.cells ≤ b.length) :
    exec .tick s = .next (afterHook s.inp.hook.returns { s with
      row := 7, fb := hookFb s.cells s.fb s.inp.hook.frames
      pins := { s.pins with lat := false, a0 := true, a1 := true, a2 := true }
      trace := s.trace ++ headerEvents 7 ++ [.sync s.frame] }) := by
  rw [exec_tick_enabled hrun, tickBody_sync h7, afterHeader_eq, h7]
  exact syncTick_eq_next.2 ⟨hlong, rfl⟩

/-- A render tick is RENDER after the header (R87). -/
theorem exec_tick_render (hrun : s.run = true) (h7 : s.row + 1 ≠ 7) : exec .tick s = render (afterHeader s) := by
  rw [exec_tick_enabled hrun, tickBody_render h7]

/-- A taken sync tick had long enough operands. -/
theorem exec_tick_sync_long (hrun : s.run = true) (h7 : s.row + 1 = 7) (hx : exec .tick s = .next t) :
    ∀ b ∈ s.inp.hook.frames, s.cells ≤ b.length := by
  rw [exec_tick_enabled hrun, tickBody_sync h7] at hx
  exact (syncTick_eq_next.1 hx).1

/-- An address that is no cell of row `r` lies on the side that `Rendered.others` asks for (R41). -/
theorem outside_row_of_ne {p : Params} {r a : Nat} (h : ∀ c ch, c < p.cols → ch < 2 → a ≠ cellAddr p r c ch) :
    a < cellAddr p r 0 0 ∨ cellAddr p r 0 0 + 2 * p.cols ≤ a := by
  by_contra hin
  have hcell := h ((a - cellAddr p r 0 0) / 2) ((a - cellAddr p r 0 0) % 2) (by omega) (by omega)
  unfold cellAddr at *
  omega

end

/-! ## Runs of ticks whose Hook returns -/

theorem syncArgs_append (es fs : List Event) : syncArgs (es ++ fs) = syncArgs es ++ syncArgs fs := by
  induction es with
  | nil => rfl
  | cons e t ih =>
    cases e with
    | out p v => exact ih
    | sync k => exact congrArg (k :: ·) ih

theorem syncArgs_headerEvents (r : Row) : syncArgs (headerEvents r) = [] := rfl

/-- RENDER does not call the Hook (R101). -/
theorem syncArgs_columns (A P : Nat → Nat → Byte) (cs : List Nat) :
    syncArgs (cs.flatMap (columnEvents A P)) = [] := by
  induction cs with
  | nil => rfl
  | cons c t ih => rw [List.flatMap_cons, syncArgs_append, ih]; rfl

/-- How many of the next `n` ticks reach row 7: the multiples of 8 that `row + 1` passes (R81, R85). -/
theorem countRows_isSync (row : Row) (n : Nat) :
    countRows isSync row n = (row.toNat + n + 1) / 8 - (row.toNat + 1) / 8 := by
  induction n generalizing row with
  | zero => simp [countRows]
  | succ n ih =>
    have hnext : (row + 1).toNat = (row.toNat + 1) % 8 := BitVec.toNat_add row 1
    have hsync : (isSync (row + 1)).toNat = if row.toNat = 6 then 1 else 0 := by revert row; decide
    have hlt := row_lt row
    rw [countRows, ih, hnext, hsync]
    split <;> omega

/-- What `n` ticks that emit `es` do to the cursor and the frame counter, and how they call the Hook. -/
structure Counted (n : Nat) (s : State) (es : List Event) (t : State) : Prop where
  params : t.params = s.params
  trace : t.trace = s.trace ++ es
  row : t.row = s.row + BitVec.ofNat 3 n
  frame : t.frame = (s.frame + countRows isSync s.row n) % 2 ^ s.params.fcw
  calls : syncArgs es = (List.range (countRows isSync s.row n)).map fun j => (s.frame + j) % 2 ^ s.params.fcw

section
variable {s t u : State} {es fs : List Event}

theorem Counted.refl (hf : s.frame < 2 ^ s.params.fcw) : Counted 0 s [] s where
  params := rfl
  trace := (List.append_nil _).symm
  row := (BitVec.add_zero _).symm
  frame := (Nat.mod_eq_of_lt hf).symm
  calls := rfl

theorem Counted.trans {m n : Nat} (h : Counted m s es u) (k : Counted n u fs t) : Counted (m + n) s (es ++ fs) t where
  params := k.params.trans h.params
  trace := by rw [k.trace, h.trace, List.append_assoc]
  row := by rw [k.row, h.row, BitVec.ofNat_add, BitVec.add_assoc]
  frame := by rw [k.frame, h.frame, h.row, h.params, Nat.mod_add_mod, countRows_add, Nat.add_assoc]
  calls := by
    rw [syncArgs_append, h.calls, k.calls, h.frame, h.row, h.params, countRows_add, List.range_add, List.map_append,
      List.map_map]
    simp [Function.comp_def, Nat.add_assoc]

/-- A sync tick whose Hook returns calls it once, with the counter before its increment (R85, R86). -/
theorem counted_sync (hf : s.frame < 2 ^ s.params.fcw) (hrun : s.run = true) (h7 : s.row + 1 = 7)
    (hret : s.inp.hook.returns = true) (hx : exec .tick s = .next t) :
    Counted 1 s (headerEvents 7 ++ [.sync s.frame]) t ∧ t.ph = s.ph ∧ t.run = s.run := by
  rw [exec_tick_sync hrun h7 (exec_tick_sync_long hrun h7 hx), afterHook, if_pos hret] at hx
  cases hx
  have hcount : countRows isSync s.row 1 = 1 := by rw [countRows_one, isSync_iff.2 h7]; rfl
  refine ⟨?_, rfl, rfl⟩
  constructor
  case params => rfl
  case trace => exact List.append_assoc ..
  case row => exact h7.symm
  case frame => rw [hcount]; rfl
  case calls =>
    rw [hcount, syncArgs_append, syncArgs_headerEvents]
    simp [syncArgs, Nat.mod_eq_of_lt hf]

/-- A render tick calls no Hook and leaves the counter alone (R87). -/
theorem counted_render (hf : s.frame < 2 ^ s.params.fcw) (hrun : s.run = true) (h7 : s.row + 1 ≠ 7)
    (hx : exec .tick s = .next t) : (∃ es, Counted 1 s es t) ∧ t.ph = s.ph ∧ t.run = s.run := by
  rw [exec_tick_render hrun h7] at hx
  obtain ⟨A, P, -, done⟩ := render_next hx
  have hcount : countRows isSync s.row 1 = 0 := by
    rw [countRows_one, Bool.eq_false_iff.2 fun h => h7 (isSync_iff.1 h)]; rfl
  refine ⟨⟨headerEvents (s.row + 1) ++ (List.range' 0 s.params.cols).flatMap (columnEvents A P), ?_⟩, ?_, ?_⟩
  · constructor
    case params => rw [done.frame]; rfl
    case trace => rw [done.trace, afterHeader_eq, List.append_assoc]
    case row => rw [done.frame]; rfl
    case frame => rw [done.frame, hcount]; exact (Nat.mod_eq_of_lt hf).symm
    case calls => rw [hcount, syncArgs_append, syncArgs_headerEvents, syncArgs_columns]; rfl
  · rw [done.frame]; rfl
  · rw [done.frame]; rfl

/-- An enabled tick whose Hook returns is a run of one tick, whatever row it reaches. -/
theorem counted_one (hf : s.frame < 2 ^ s.params.fcw) (hrun : s.run = true) (hret : s.inp.hook.returns = true)
    (hx : exec .tick s = .next t) : (∃ es, Counted 1 s es t) ∧ t.ph = s.ph ∧ t.run = s.run := by
  by_cases h7 : s.row + 1 = 7
  · obtain ⟨one, same⟩ := counted_sync hf hrun h7 hret hx
    exact ⟨⟨_, one⟩, same⟩
  · exact counted_render hf hrun h7 hx

/-- The step that takes a presented tick whose Hook returns. -/
theorem step_counted (h : Ticking s) {hook : HookRun} {rest : List Stimulus} (hstim : s.stim = .tick hook :: rest)
    (hret : hook.returns = true) (hwf : hook.wf s.params = true) :
    ∃ t es, step s = .next t ∧ Ticking t ∧ t.stim = rest ∧ Counted 1 s es t := by
  have turn := nextTurn_tick hstim h.idle
  have notRst : ¬s.RstTurn := by simp [State.RstTurn, turn, tickTurn]
  obtain ⟨t, ht⟩ := exec_completes (s := present { Inputs.quiet with hook := hook } rest s) (i := .tick)
    h.inv.col h.initialised hwf
  have hstep : step s = .next t := (step_tick turn).trans ht
  obtain ⟨⟨es, one⟩, hph, hrun⟩ := counted_one (s := present { Inputs.quiet with hook := hook } rest s)
    h.inv.frame h.run hret ht
  refine ⟨t, es, hstep, ?_, ?_, { one with }⟩
  · exact
      { inv := everyStepKeepsTheInvariant s t h.inv hstep
        initialised := step_keeps_initialised notRst h.initialised hstep
        idle := hph.trans h.idle
        run := hrun.trans h.run }
  · rw [(step_stim hstep).2, turn]; rfl

/-- A run of presented ticks whose Hook returns completes (R89). -/
theorem runSteps_counted (n : Nat) (s : State) (h : Ticking s) {hook : HookRun} {rest : List Stimulus}
    (hstim : s.stim = ticks n hook ++ rest) (hret : hook.returns = true) (hwf : hook.wf s.params = true) :
    ∃ t es, runSteps n s = .next t ∧ t.stim = rest ∧ Counted n s es t := by
  induction n generalizing s with
  | zero => exact ⟨s, [], rfl, hstim, .refl h.inv.frame⟩
  | succ n ih =>
    obtain ⟨u, es, hu, hticking, hustim, one⟩ := step_counted h hstim hret hwf
    obtain ⟨t, fs, ht, htstim, done⟩ := ih u hticking hustim (one.params ▸ hwf)
    refine ⟨t, es ++ fs, ?_, htstim, Nat.add_comm n 1 ▸ one.trans done⟩
    rw [runSteps, hu]
    exact ht

end

/-! ## Operations that wait for the sequencer -/

/-- The stimulus `x` is an operation that the sequencer is not ready for: a tick outside IDLE (R93), a command that
`CmdReady` does not let in (R125). -/
def Unready (s : State) (x : Stimulus) : Prop :=
  (∃ h, x = .tick h) ∧ s.ph ≠ codeIdle ∨ ∃ c src seed, x = .command c src seed ∧ ¬cmdReady s.ph c = true

section
variable {s : State}

/-- The turn of an operation that is not ready: a clock cycle, the operation keeping its place (R93, R125). -/
theorem nextTurn_unready {x : Stimulus} {behind : List Stimulus} (hstim : s.stim = x :: behind)
    (unready : Unready s x) :
    nextTurn s = clockTurn s (holdStimulus x (cyclePorts behind)) (x :: afterCycle behind) := by
  obtain ⟨⟨h, rfl⟩, busy⟩ | ⟨c, src, seed, rfl, busy⟩ := unready <;>
    · simp only [nextTurn, hstim, if_neg busy]
      rfl

/-- A busy sequencer with nothing but ticks presented runs a quiet clock cycle (R93; log 4). -/
theorem nextTurn_only_ticks (busy : s.ph ≠ codeIdle) (hticks : ∀ x ∈ s.stim, ∃ h, x = .tick h) :
    nextTurn s = clockTurn s Inputs.quiet s.stim := by
  cases hstim : s.stim with
  | nil => simp only [nextTurn, hstim]
  | cons x behind =>
    rw [hstim, List.forall_mem_cons] at hticks
    obtain ⟨⟨h, rfl⟩, hbehind⟩ := hticks
    obtain ⟨hports, hafter⟩ := cycle_none (xs := behind) fun inp hm => by
      obtain ⟨_, e⟩ := hbehind _ hm
      cases e
    rw [nextTurn_unready hstim (.inl ⟨⟨h, rfl⟩, busy⟩), hports, hafter]
    rfl

/-- With quiet ports a busy sequencer's latch and lost-tick mark stay as they are (R153). -/
theorem latchTick_quiet (busy : s.ph ≠ codeIdle) (rest : List Stimulus) (t : State) :
    latchTick (present Inputs.quiet rest s) t = setPend s.tickPend t := by
  have hstart : ¬startIn s.ph (present Inputs.quiet rest s) = true := fun h => busy (startIn_iff.1 h).1
  have hpend : nextPend (present Inputs.quiet rest s) = s.tickPend := if_neg hstart
  have hlost : losesTick (present Inputs.quiet rest s) = false := rfl
  rw [latchTick, hpend, hlost, markLost, Bool.or_false]

theorem setPh_same {p : BitVec 4} (h : s.ph = p) : setPh p s = s := by
  rw [← h]; rfl

/-- With quiet ports SYNC_WAIT waits on (R148). -/
theorem exec_phSyncWait_quiet (rest : List Stimulus) :
    exec .phSyncWait (present Inputs.quiet rest s) = .next (setPh codeSyncWait (present Inputs.quiet rest s)) := rfl

/-- A suspended block with nothing but ticks presented samples quiet ports and changes nothing else (R92; log 4). -/
theorem step_suspended (hph : s.ph = codeSyncWait) (hticks : ∀ x ∈ s.stim, ∃ h, x = .tick h) :
    step s = .next (present Inputs.quiet s.stim s) := by
  have busy : s.ph ≠ codeIdle := by rw [hph]; decide
  have hphase : decodePhase s.ph = .phSyncWait := by rw [hph]; rfl
  rw [step_clock rfl (nextTurn_only_ticks busy hticks), hphase, exec_phSyncWait_quiet, andThen_next,
    latchTick_quiet busy, setPh_same (s := present Inputs.quiet s.stim s) hph]
  rfl

end

/-! ## The statements of the family -/

/-- Settles O44: the multiples of 8 that the cursor passes are the calls of the Hook. -/
theorem ticksCountRowsAndFrames : Obligations.TicksCountRowsAndFrames := by
  unfold Obligations.TicksCountRowsAndFrames
  intro n s hook rest hinv hd idle hrun hstim hret hwf
  obtain ⟨t, es, ht, hrest, done⟩ := runSteps_counted n s ⟨hinv, hd, idle, hrun⟩ hstim hret hwf
  rw [← countRows_isSync]
  exact ⟨t, es, ht, hrest, done.trace, done.row, done.frame, done.calls⟩

/-- Settles O23: the header and RENDER of the row that the cursor reaches. -/
theorem renderTickShiftsItsRow : Obligations.RenderTickShiftsItsRow := by
  unfold Obligations.RenderTickShiftsItsRow
  intro s A P hrun hrow hcols hold
  obtain ⟨t, ht, done⟩ := render_rendered (s := afterHeader s) (A := A) (P := P) fun c ch _ hc hch =>
    hold c ch (Nat.zero_add s.params.cols ▸ hc) hch
  have htrace : t.trace = s.trace ++ headerEvents (s.row + 1) ++
      (List.range s.params.cols).flatMap (columnEvents A P) := by
    rw [done.trace, List.range_eq_range', afterHeader_eq]
  have hpins := done.pins
  rw [if_neg (show (afterHeader s).params.cols ≠ 0 from Nat.one_le_iff_ne_zero.1 hcols), Nat.zero_add,
    afterHeader_eq] at hpins
  refine ⟨t, (exec_tick_render hrun (row_succ_ne_seven hrow)).trans ht, ?_, ?_, ?_, ?_⟩
  · rw [done.frame, hpins, htrace, afterHeader_eq]
  · exact fun c ch hc hch => done.visited c ch (Nat.zero_le c) ((Nat.zero_add s.params.cols).symm ▸ hc) hch
  · exact fun a ha => done.others a (outside_row_of_ne ha)
  · rw [htrace, List.range_eq_range', List.length_append, List.length_append, headerEvents_length,
      columns_events_length]

/-- Settles O24: the Hook's return increments the counter that the call carried. -/
theorem syncTickCallsTheHookAndCounts : Obligations.SyncTickCallsTheHookAndCounts := by
  unfold Obligations.SyncTickCallsTheHookAndCounts
  intro s hrun hrow hret hlong
  refine ⟨_, exec_tick_sync hrun (by rw [hrow]; rfl) hlong, ?_⟩
  rw [afterHook, if_pos hret]
  exact ⟨rfl, read_hookFb _ _ hlong⟩

/-- Settles O25: a Hook that does not return leaves the phase SYNC_WAIT behind and the counter as it was. -/
theorem unansweredHookLeavesTheTickSuspended : Obligations.UnansweredHookLeavesTheTickSuspended := by
  unfold Obligations.UnansweredHookLeavesTheTickSuspended
  intro s hrun hrow hret hlong
  refine ⟨_, exec_tick_sync hrun (by rw [hrow]; rfl) hlong, ?_⟩
  rw [afterHook, if_neg (Bool.eq_false_iff.1 hret)]
  exact ⟨rfl, read_hookFb _ _ hlong⟩

/-- Settles O26, by induction on the number of steps: each leaves the block suspended with the same ticks. -/
theorem suspendedBlockTakesNoTick : Obligations.SuspendedBlockTakesNoTick := by
  unfold Obligations.SuspendedBlockTakesNoTick
  intro n
  induction n with
  | zero => exact fun s _ _ => ⟨s, rfl, rfl, rfl, rfl, rfl⟩
  | succ n ih =>
    intro s hph hticks
    rw [runSteps, step_suspended hph hticks]
    exact ih (present Inputs.quiet s.stim s) hph hticks

/-- Settles O51: the remaining stimuli, by the form of the coming turn. -/
theorem operationsAreTakenInOrder : Obligations.OperationsAreTakenInOrder := by
  unfold Obligations.OperationsAreTakenInOrder
  intro s t h
  rw [(step_stim h).2]
  obtain ⟨inp, rest, hstim, turn⟩ | ⟨hstim, turn⟩ | ⟨x, rest, hstim, -, turn⟩ |
    ⟨hook, rest, hstim, idle, turn⟩ | ⟨c, src, seed, rest, hstim, ready, turn⟩ := nextTurn_cases s <;>
    rw [turn, hstim]
  · exact .inl ⟨rfl, rfl⟩
  · exact .inl ⟨rfl, rfl⟩
  · refine .inl ⟨rfl, ?_⟩
    rw [clockTurn, List.filter_cons, List.filter_cons, afterCycle_operations]
  · exact .inr ⟨rfl, _, rfl, .inl ⟨⟨hook, rfl⟩, idle⟩⟩
  · exact .inr ⟨rfl, _, rfl, .inr ⟨c, src, seed, rfl, cmdReady_iff.1 ready⟩⟩

/-- Settles O8: the operation holds its place, and the first clock cycle behind it is the one that runs. -/
theorem unreadyOperationWaits : Obligations.UnreadyOperationWaits := by
  unfold Obligations.UnreadyOperationWaits
  intro s x behind ops tail inp ports i hstim hdecode hrst hops hbehind hwaits
  obtain rfl : decodePhase s.ph = i := Except.ok.inj ((decode_phase s.ph).symm.trans hdecode)
  have hcycle : cyclePorts behind = inp ∧ afterCycle behind = ops ++ tail := by
    obtain rfl | ⟨rfl, rfl, rfl⟩ := hbehind
    · exact cycle_first hops
    · rw [List.append_nil]; exact cycle_none hops
  obtain ⟨unready, hports⟩ : Unready s x ∧ ports = holdStimulus x inp := by
    obtain ⟨⟨h, rfl⟩, busy, rfl⟩ | ⟨c, src, seed, rfl, busy, notSync, rfl⟩ := hwaits
    · exact ⟨.inl ⟨⟨h, rfl⟩, busy⟩, rfl⟩
    · exact ⟨.inr ⟨c, src, seed, rfl, fun ready => (cmdReady_iff.1 ready).elim busy notSync⟩, rfl⟩
  have turn : nextTurn s = clockTurn s ports (x :: (ops ++ tail)) := by
    rw [nextTurn_unready hstim unready, hcycle.1, hcycle.2, hports]
  exact step_clock (by rw [hports, holdStimulus_rst]; exact hrst) turn

/-- Settles O22: no tick is taken while disabled. -/
theorem tickWithoutRunHasNoEffect : Obligations.TickWithoutRunHasNoEffect := by
  unfold Obligations.TickWithoutRunHasNoEffect
  exact fun s hrun => exec_tick_disabled (Bool.eq_false_iff.1 hrun)

end Sys2Proof.Machine
end

-- ==== Proofs of the family 41_dither_engine ====
section
/-! PROOFS of the family 41_dither_engine: one visit conserves the sum of residual and pixel byte, and the closed
form of R109 and the period of R110 are that law summed over consecutive visits of a cell (R103 to R105). -/

namespace Sys2Proof.Machine

/-! ## One visit -/

/-- The carry is bit 8 of the sum: it is set exactly when the sum leaves the byte (R103). -/
theorem carryOf_ditherSum (a p : Byte) : carryOf (ditherSum a p) = decide (256 ≤ a.toNat + p.toNat) := by
  rw [← Bool.not_not (carryOf _), ← emittedBit_eq_not_carry, emittedBit_eq_due, dueBit, ← decide_not]
  exact decide_eq_decide.2 Nat.not_lt

/-- The conservation law of a visit: residual and carry together are the old residual and the pixel byte (R109). -/
theorem residual_add_carry (a p : Byte) :
    (residualOf (ditherSum a p)).toNat + 256 * (carryOf (ditherSum a p)).toNat = a.toNat + p.toNat := by
  have ha := a.isLt
  have hp := p.isLt
  rw [residualOf_toNat, carryOf_ditherSum]
  by_cases h : 256 ≤ a.toNat + p.toNat
  · rw [decide_eq_true h, Bool.toNat_true]; omega
  · rw [decide_eq_false h, Bool.toNat_false]; omega

/-! ## Consecutive visits of one cell -/

section
variable {p : Byte} {cell : Nat → Byte} (hcell : ∀ k, cell (k + 1) = residualOf (ditherSum (cell k) p))

/-- The bits are the visits without a carry (R104). -/
theorem count_bits_add_count_carries (m n : Nat) :
    (List.range' m n).countP (fun k => emittedBit (ditherSum (cell k) p)) +
      (List.range' m n).countP (fun k => carryOf (ditherSum (cell k) p)) = n := by
  have hsplit := List.length_eq_countP_add_countP (fun k => carryOf (ditherSum (cell k) p))
    (l := List.range' m n)
  simpa [emittedBit_eq_not_carry, Nat.add_comm] using hsplit.symm

include hcell

/-- The conservation law over the `n` visits from visit `m` on, by induction on `n` (R109's proof). -/
theorem cell_add_count_carries (m n : Nat) :
    (cell (m + n)).toNat + 256 * (List.range' m n).countP (fun k => carryOf (ditherSum (cell k) p)) =
      (cell m).toNat + n * p.toNat := by
  induction n with
  | zero => simp
  | succ n ih =>
    have hvisit := residual_add_carry (cell (m + n)) p
    have hcount : (List.range' m (n + 1)).countP (fun k => carryOf (ditherSum (cell k) p)) =
        (List.range' m n).countP (fun k => carryOf (ditherSum (cell k) p)) +
          (carryOf (ditherSum (cell (m + n)) p)).toNat := by
      rw [List.range'_1_concat, List.countP_append, List.countP_singleton, Bool.toNat, Bool.cond_eq_ite]
    rw [← hcell] at hvisit
    rw [hcount, Nat.succ_mul n, ← Nat.add_assoc m]
    omega

end

/-! ## The statements of the family -/

/-- Settles O13: the conservation law over the first `n` visits, and once more for visit `n` itself. -/
theorem residualsFollowTheClosedForm : Obligations.ResidualsFollowTheClosedForm := by
  unfold Obligations.ResidualsFollowTheClosedForm
  intro a0 p cell h0 hcell n
  have hsum := cell_add_count_carries hcell 0 n
  have hbits := count_bits_add_count_carries (p := p) (cell := cell) 0 n
  have hvisit := residual_add_carry (cell n) p
  have hn := (cell n).isLt
  have hnext := (cell (n + 1)).isLt
  rw [← hcell] at hvisit
  rw [Nat.zero_add, h0] at hsum
  rw [List.range_eq_range', Nat.succ_mul n]
  refine ⟨?_, ?_, emittedBit_eq_not_carry _, ?_, ?_⟩ <;> omega

/-- Settles O14: the conservation law over a window of 256 visits, where the pixel bytes sum to `256 * p`. -/
theorem everyPeriodOfVisitsHoldsItsIntensity : Obligations.EveryPeriodOfVisitsHoldsItsIntensity := by
  unfold Obligations.EveryPeriodOfVisitsHoldsItsIntensity
  intro p cell hcell m
  have hsum := cell_add_count_carries hcell m 256
  have hbits := count_bits_add_count_carries (p := p) (cell := cell) m 256
  have hstart := (cell m).isLt
  have hend := (cell (m + 256)).isLt
  refine ⟨BitVec.eq_of_toNat_eq ?_, ?_, ?_⟩ <;> omega

/-- Settles O12: the sum of two bytes fits 9 bits. -/
theorem visitSumIsExact : Obligations.VisitSumIsExact := by
  unfold Obligations.VisitSumIsExact
  intro a p
  have ha := a.isLt
  have hp := p.isLt
  refine ⟨ditherSum_toNat a p, ?_, ?_⟩
  · rw [ditherSum_toNat]; omega
  · rw [carryOf_ditherSum, decide_eq_true_iff]

end Sys2Proof.Machine
end

-- ==== Proofs of the family 42_lifecycle ====
section
/-! PROOFS of the family 42_lifecycle: ENABLE and DISABLE at the operation level (R122, R123), SYNC_WAIT and the
commands that wait for it (R125, R148), and the cycles of DISABLE's flush tick against the operation (R157). The
part on the cycles of a rendered row knows nothing of DISABLE: it refines the tick handler from LAT_HI on. -/

namespace Sys2Proof.Machine

/-! ## DISABLE at the operation level -/

section
variable {s t : State}

/-- The state in which DISABLE's flush tick starts its header: the operation's row 0, advanced (R123). -/
abbrev flushTick (s : State) : State := advanceRow (setRow 0 (quiesce s))

/-- The state in which DISABLE's flush tick renders: row 1 of a zeroed framebuffer, while disabled (R123). -/
theorem header_flushTick (s : State) :
    header (flushTick s) = { s with
      run := false, tickPend := false, row := 1, fb := (zeroFb s).fb
      pins := { s.pins with panelEn := false, lat := false, a0 := true, a1 := false, a2 := false }
      trace := s.trace ++ [.out .panelEn false] ++ headerEvents 1 } := by
  have hrow : (flushTick s).row = 1 := rfl
  rw [header_eq, hrow]
  rfl

/-- A zeroed framebuffer gives every cell of a row whose residuals are defined the pixel byte 0. -/
theorem flushTick_columnsHold
    (h : ∀ c ch, c < s.params.cols → ch < 2 → (s.acc.read (cellAddr s.params 1 c ch)).isSome) :
    ∃ A, ColumnsHold (header (flushTick s)) 0 s.params.cols A fun _ _ => 0 := by
  refine ⟨fun c ch => (s.acc.read (cellAddr s.params 1 c ch)).getD 0, fun c ch _ hc hch => ?_⟩
  have hcol : c < s.params.cols := Nat.zero_add s.params.cols ▸ hc
  have hlt : cellAddr s.params 1 c ch < s.cells := cellAddr_lt (by decide) hcol hch
  obtain ⟨av, hav⟩ := Option.isSome_iff_exists.1 (h c ch hcol hch)
  rw [header_flushTick]
  refine ⟨?_, ?_⟩
  · show s.acc.read (cellAddr s.params 1 c ch) = some ((s.acc.read (cellAddr s.params 1 c ch)).getD 0)
    rw [hav]
    rfl
  · exact (read_zeroFb s _).trans (if_pos hlt)

/-- A column of zero pixel bytes shifts a 1 into both lanes (R110 item 1). -/
theorem columnEvents_zero (A : Nat → Nat → Byte) (c : Nat) :
    columnEvents A (fun _ _ => 0) c = [.out .sclk false, .out .dr true, .out .dg true, .out .sclk true] := by
  simp only [columnEvents, dueBit_zero]

theorem flatMap_columnEvents_zero (A : Nat → Nat → Byte) (c n : Nat) :
    (List.range' c n).flatMap (columnEvents A fun _ _ => 0) =
      (List.replicate n [.out .sclk false, .out .dr true, .out .dg true, .out .sclk true]).flatten := by
  rw [List.flatMap_def, List.map_congr_left fun c _ => columnEvents_zero A c, List.map_const', List.length_range']

/-- A rendering of zero pixel bytes changes no accumulator (R110 item 1). -/
theorem Rendered.acc_of_zero {A : Nat → Nat → Byte} (hold : ColumnsHold s 0 s.params.cols A fun _ _ => 0)
    (done : Rendered s 0 s.params.cols A (fun _ _ => 0) t) (a : Nat) : t.acc.read a = s.acc.read a := by
  by_cases hcell : ∃ c ch, c < s.params.cols ∧ ch < 2 ∧ a = cellAddr s.params s.row.toNat c ch
  · obtain ⟨c, ch, hc, hch, rfl⟩ := hcell
    have hrange : c < 0 + s.params.cols := (Nat.zero_add s.params.cols).symm ▸ hc
    rw [done.visited c ch (Nat.zero_le c) hrange hch, (hold c ch (Nat.zero_le c) hrange hch).1, dueResidual_zero]
  · exact done.others a (outside_row_of_ne fun c ch hc hch e => hcell ⟨c, ch, hc, hch, e⟩)

/-- DISABLE's flush tick, from any state whose row 1 of ACC is defined (R123). -/
theorem execDisable_flush (hcols : 1 ≤ s.params.cols)
    (h : ∀ c ch, c < s.params.cols → ch < 2 → (s.acc.read (cellAddr s.params 1 c ch)).isSome) :
    ∃ t, execDisable s = .next t ∧
      t = { s with
        run := false, tickPend := false, row := 1, fb := t.fb, acc := t.acc
        pins := ⟨false, true, false, false, true, true, true, false⟩
        trace := s.trace ++ [.out .panelEn false, .out .lat true, .out .a0 true, .out .a1 false,
            .out .a2 false, .out .lat false] ++
          (List.replicate s.params.cols
            [.out .sclk false, .out .dr true, .out .dg true, .out .sclk true]).flatten } ∧
      t.fb = (zeroFb s).fb ∧ ∀ a, t.acc.read a = s.acc.read a := by
  obtain ⟨A, hold⟩ := flushTick_columnsHold h
  obtain ⟨t, ht, done⟩ := render_rendered hold
  have hpins : t.pins = ⟨false, true, false, false, true, true, true, false⟩ := by
    rw [done.pins, header_flushTick, if_neg (Nat.one_le_iff_ne_zero.1 hcols), dueBit_zero, dueBit_zero]
  have htrace : t.trace = s.trace ++ [.out .panelEn false, .out .lat true, .out .a0 true, .out .a1 false,
      .out .a2 false, .out .lat false] ++ (List.replicate s.params.cols
        [.out .sclk false, .out .dr true, .out .dg true, .out .sclk true]).flatten := by
    rw [done.trace, header_flushTick, flatMap_columnEvents_zero, List.append_assoc s.trace]
    rfl
  have hacc := done.acc_of_zero hold
  refine ⟨t, (execDisable_eq s).trans ht, ?_, ?_, hacc⟩
  · rw [done.frame, hpins, htrace, header_flushTick]
  · rw [done.frame, header_flushTick]

end

/-! ## The latch in a cycle that neither starts nor discards a tick -/

/-- Such a cycle sets the latch for a strobe under `run = 1`, and marks it lost when one was pending (R153). -/
theorem latchTick_kept {s : State} (hstart : ¬startIn s.ph s = true) (hdisable : ¬acceptsDisable s = true)
    (t : State) :
    latchTick s t = { t with
      tickPend := (s.inp.tick && s.run) || s.tickPend, lost := t.lost || s.inp.tick && s.run && s.tickPend } := by
  have hpend : nextPend s = ((s.inp.tick && s.run) || s.tickPend) := by
    rw [nextPend, if_neg hdisable, if_neg hstart]
    cases s.inp.tick && s.run <;> rfl
  have hlost : losesTick s = (s.inp.tick && s.run && s.tickPend) := by
    simp only [losesTick, Bool.eq_false_iff.2 hstart, Bool.eq_false_iff.2 hdisable, Bool.not_false, Bool.and_true]
  rw [latchTick, hpend, hlost]
  rfl

/-! ## SYNC_WAIT -/

section
variable {s : State}

/-- In SYNC_WAIT only SETFRAME is accepted (R125). -/
theorem acceptIn_syncWait {inp : Inputs} :
    acceptIn codeSyncWait inp = true ↔ inp.cmdValid = true ∧ inp.cmd = cmdSetframe := by
  rw [acceptIn_iff]
  exact and_congr_right' ⟨fun h => (h.resolve_left (by decide)).2, fun h => .inr ⟨rfl, h⟩⟩

/-- What SYNC_WAIT does once the Hook's SETFRAME, if any, is loaded: the Hook's return is sampled (R148). -/
def sampleAck (ack : Level) (s : State) : State :=
  if ack then setPh codeIdle (bumpFrame s) else setPh codeSyncWait s

theorem sampleAck_eq (ack : Level) (s : State) :
    sampleAck ack s = { s with
      ph := if ack = true then codeIdle else codeSyncWait
      frame := if ack = true then (s.frame + 1) % 2 ^ s.params.fcw else s.frame } := by
  cases ack <;> rfl

theorem exec_phSyncWait_waits (h : ¬(s.inp.cmdValid = true ∧ s.inp.cmd = cmdSetframe)) :
    exec .phSyncWait s = .next (sampleAck s.inp.syncAck s) := by
  simp only [exec, execPhSyncWait, if_neg (mt acceptIn_syncWait.1 h), andThen_next, sampleAck]
  split <;> rfl

theorem exec_phSyncWait_setframe (hv : s.inp.cmdValid = true) (hc : s.inp.cmd = cmdSetframe)
    (hlong : s.cells ≤ s.inp.srcBuf.length) :
    exec .phSyncWait s = .next (sampleAck s.inp.syncAck (fillFb (s.inp.srcBuf.take s.cells) s)) := by
  simp only [exec, execPhSyncWait, if_pos (acceptIn_syncWait.2 ⟨hv, hc⟩), loadFrame_eq_next.2 ⟨hlong, rfl⟩,
    andThen_next, sampleAck]
  split <;> rfl

/-- A cycle in SYNC_WAIT without a SETFRAME on the port samples the Hook's return, and strobes are kept (R148,
R153). -/
theorem step_syncWait_waits {inp : Inputs} {rest : List Stimulus} (hph : s.ph = codeSyncWait)
    (turn : nextTurn s = clockTurn s inp rest) (hrst : inp.rst = false)
    (h : ¬(inp.cmdValid = true ∧ inp.cmd = cmdSetframe)) :
    step s = .next { sampleAck inp.syncAck s with
      tickPend := (inp.tick && s.run) || s.tickPend
      lost := s.lost || inp.tick && s.run && s.tickPend
      inp := inp, stim := rest } := by
  have hphase : decodePhase s.ph = .phSyncWait := by rw [hph]; rfl
  have hstart : ¬startIn s.ph (present inp rest s) = true := fun hs => by
    rw [hph] at hs
    exact absurd (startIn_iff.1 hs).1 (by decide)
  have hdisable : ¬acceptsDisable (present inp rest s) = true := fun hd => by
    obtain ⟨ha, -⟩ := acceptsDisable_iff.1 hd
    exact h (acceptIn_syncWait.1 (hph ▸ ha))
  rw [step_clock hrst turn, hphase, exec_phSyncWait_waits h, andThen_next, latchTick_kept hstart hdisable,
    sampleAck_eq, sampleAck_eq]
  rfl

/-- The turn of a command that waits for the Hook: it is held on the port in a cycle without a command of its own
(R125; logs 4, 17). -/
theorem nextTurn_held {c : BitVec 3} {src seed : List Byte} {inp : Inputs} {rest : List Stimulus}
    (hph : s.ph = codeSyncWait) (hc : c ≠ cmdSetframe) (hstim : s.stim = .command c src seed :: .cycle inp :: rest)
    (hv : inp.cmdValid = false) :
    nextTurn s = clockTurn s { inp with cmdValid := true, cmd := c, srcBuf := src, seedBuf := seed }
      (.command c src seed :: rest) := by
  have unready : ¬cmdReady s.ph c = true := fun h => by
    rw [hph] at h
    exact (cmdReady_iff.1 h).elim (by decide) fun h => hc h.2
  have hheld : holdCommand c src seed inp = { inp with cmdValid := true, cmd := c, srcBuf := src, seedBuf := seed } :=
    if_neg (Bool.eq_false_iff.1 hv)
  rw [← hheld]
  exact nextTurn_unready hstim (.inr ⟨c, src, seed, rfl, unready⟩)

end

/-! ## The cycles of a rendered row (R157) -/

/-- The cycle-level state `s` stands in phase `q` at column `c` and shows what the operation-level state `u`
shows (R10, R157). -/
structure Mirrors (q : BitVec 4) (c : Nat) (u s : State) : Prop where
  ph : s.ph = q
  col : s.col = c
  params : s.params = u.params
  view : s.opView = u.opView
  trace : s.trace = u.trace

section
variable {q q' : BitVec 4} {c : Nat} {u u' s t : State}

theorem Mirrors.row (h : Mirrors q c u s) : s.row = u.row := congrArg OpView.row h.view
theorem Mirrors.run (h : Mirrors q c u s) : s.run = u.run := congrArg OpView.run h.view
theorem Mirrors.acc (h : Mirrors q c u s) : s.acc = u.acc := congrArg OpView.acc h.view
theorem Mirrors.fb (h : Mirrors q c u s) : s.fb = u.fb := congrArg OpView.fb h.view

theorem Mirrors.setPh (h : Mirrors q c u s) (q' : BitVec 4) : Mirrors q' c u (setPh q' s) :=
  { h with ph := rfl }

theorem Mirrors.present (h : Mirrors q c u s) (inp : Inputs) (rest : List Stimulus) :
    Mirrors q c u (present inp rest s) :=
  { h with }

/-- The latch and the lost-tick mark are no part of the operation level (R10). -/
theorem Mirrors.latchTick (h : Mirrors q c u t) (s : State) : Mirrors q c u (latchTick s t) :=
  { h with }

theorem Mirrors.emit (h : Mirrors q c u s) (p : Pin) (v : Level) : Mirrors q c (emit p v u) (emit p v s) :=
  { h with
    view := congrArg (fun w : OpView => { w with pins := w.pins.set p v }) h.view
    trace := congrArg (· ++ [Event.out p v]) h.trace }

theorem Mirrors.storeAcc (h : Mirrors q c u s) (a : Nat) (v : Byte) :
    Mirrors q c (storeAcc a v u) (storeAcc a v s) :=
  { h with view := congrArg (fun w : OpView => { w with acc := w.acc.write a v }) h.view }

/-- A visit reads and writes the operation level only (R102). -/
theorem Mirrors.ditherTo (h : Mirrors q c u s) {pin : Pin} {c' ch : Nat} (hx : ditherTo pin c' ch u = .next u') :
    ∃ t, ditherTo pin c' ch s = .next t ∧ Mirrors q c u' t := by
  obtain ⟨hlt, av, pv, hav, hpv, rfl⟩ := ditherTo_eq_next.1 hx
  have haddr : cellAddr s.params s.row.toNat c' ch = cellAddr u.params u.row.toNat c' ch := by rw [h.params, h.row]
  refine ⟨_, ditherTo_eq_next.2 ⟨?_, av, pv, ?_, ?_, rfl⟩, ?_⟩
  · rw [haddr, cells_eq, h.params]; exact hlt
  · rw [haddr, h.acc]; exact hav
  · rw [haddr, h.fb]; exact hpv
  · rw [haddr]; exact (h.storeAcc _ _).emit _ _

end

/-- The next `n` stimuli are clock cycles without `rst`, and `rest` stands behind them. -/
def Presents (n : Nat) (rest : List Stimulus) (s : State) : Prop :=
  ∃ ins : List Inputs, ins.length = n ∧ (∀ x ∈ ins, x.rst = false) ∧ s.stim = ins.map .cycle ++ rest

theorem Presents.stim_of_zero {rest : List Stimulus} {s : State} (h : Presents 0 rest s) : s.stim = rest := by
  obtain ⟨ins, hlen, -, hstim⟩ := h
  rw [hstim, List.length_eq_zero_iff.1 hlen]
  rfl

theorem nextTurn_cycle {s : State} {inp : Inputs} {rest : List Stimulus} (hstim : s.stim = .cycle inp :: rest) :
    nextTurn s = clockTurn s inp rest := by
  simp [nextTurn, hstim]

/-- The rule of phase `q`, in terms of what it shows: from column `c` and the operation-level state `u` it goes on
to phase `q'` at column `c'` and shows `u'`. -/
def PhaseRule (q : BitVec 4) (c : Nat) (u : State) (q' : BitVec 4) (c' : Nat) (u' : State) : Prop :=
  ∀ s, Mirrors q c u s → ∃ t, exec (decodePhase q) s = .next t ∧ Mirrors q' c' u' t

/-- What `n` presented clock cycles do, in the terms of `PhaseRule`. -/
def CyclesRule (n : Nat) (q : BitVec 4) (c : Nat) (u : State) (q' : BitVec 4) (c' : Nat) (u' : State) : Prop :=
  ∀ s m rest, Mirrors q c u s → Presents (n + m) rest s →
    ∃ t, runSteps n s = .next t ∧ Mirrors q' c' u' t ∧ Presents m rest t

theorem runSteps_one (s : State) : runSteps 1 s = step s := by
  show andThen (step s) Host.Outcome.next = step s
  cases step s <;> rfl

theorem runSteps_add (m n : Nat) (s : State) : runSteps (m + n) s = andThen (runSteps m s) (runSteps n) := by
  induction m generalizing s with
  | zero => rw [Nat.zero_add]; rfl
  | succ m ih =>
    rw [Nat.succ_add, runSteps, runSteps, andThen_assoc]
    congr 1
    exact funext ih

theorem runSteps_keeps_inv {n : Nat} {s t : State} (h : s.Inv) (hx : runSteps n s = .next t) : t.Inv := by
  induction n generalizing s with
  | zero => cases hx; exact h
  | succ n ih =>
    obtain ⟨u, hu, hx⟩ := andThen_eq_next.1 hx
    exact ih (everyStepKeepsTheInvariant s u h hu) hx

section
variable {q q' q'' : BitVec 4} {c c' c'' n : Nat} {u u' u'' : State}

/-- One clock cycle is its phase's rule and the latch update (R140). -/
theorem PhaseRule.cycle (h : PhaseRule q c u q' c' u') : CyclesRule 1 q c u q' c' u' := by
  intro s m rest hs hp
  obtain ⟨_ | ⟨inp, ins⟩, hlen, hrst, hstim⟩ := hp
  · rw [List.length_nil] at hlen; omega
  obtain ⟨hr, hrst⟩ := List.forall_mem_cons.1 hrst
  have turn : nextTurn s = clockTurn s inp (ins.map .cycle ++ rest) := nextTurn_cycle hstim
  obtain ⟨t, ht, hm⟩ := h _ (hs.present inp (ins.map .cycle ++ rest))
  refine ⟨latchTick (present inp (ins.map .cycle ++ rest) s) t, ?_, hm.latchTick _, ins, ?_, hrst, ?_⟩
  · rw [runSteps_one, step_clock hr turn, hs.ph, ht, andThen_next]
  · rw [List.length_cons] at hlen; omega
  · obtain ⟨_, e, -⟩ := exec_effect ht
    exact e.stim

theorem CyclesRule.trans {m : Nat} (h : CyclesRule m q c u q' c' u') (k : CyclesRule n q' c' u' q'' c'' u'') :
    CyclesRule (m + n) q c u q'' c'' u'' := by
  intro s l rest hs hp
  obtain ⟨v, hv, hm, hp⟩ := h s (n + l) rest hs (Nat.add_assoc m n l ▸ hp)
  obtain ⟨t, ht, hm, hp⟩ := k v l rest hm hp
  exact ⟨t, by rw [runSteps_add, hv, andThen_next, ht], hm, hp⟩

/-- LAT_HI to LAT_LO write the five events of the header, and a row other than the sync row goes on to its first
column (R142 to R146). -/
theorem header_cycles (c : Nat) (h7 : u.row ≠ 7) : CyclesRule 5 codeLatHi c u codeClkLo 0 (header u) := by
  have latHi : PhaseRule codeLatHi c u codeAddr0 c (emit .lat true u) :=
    fun _ hs => ⟨_, rfl, (hs.emit _ _).setPh _⟩
  have addr0 (v : State) : PhaseRule codeAddr0 c v codeAddr1 c (emit .a0 (v.row.getLsbD 0) v) :=
    fun _ hs => ⟨_, rfl, hs.row ▸ (hs.emit _ _).setPh _⟩
  have addr1 (v : State) : PhaseRule codeAddr1 c v codeAddr2 c (emit .a1 (v.row.getLsbD 1) v) :=
    fun _ hs => ⟨_, rfl, hs.row ▸ (hs.emit _ _).setPh _⟩
  have addr2 (v : State) : PhaseRule codeAddr2 c v codeLatLo c (emit .a2 (v.row.getLsbD 2) v) :=
    fun _ hs => ⟨_, rfl, hs.row ▸ (hs.emit _ _).setPh _⟩
  have latLo (v : State) (hv : v.row ≠ 7) : PhaseRule codeLatLo c v codeClkLo 0 (emit .lat false v) := fun s hs =>
    ⟨_, if_neg fun h => hv (hs.row.symm.trans (isSync_iff.1 h)), { hs.emit .lat false with ph := rfl, col := rfl }⟩
  exact (((latHi.cycle.trans (addr0 _).cycle).trans (addr1 _).cycle).trans (addr2 _).cycle).trans
    (latLo (emit .a2 _ (emit .a1 _ (emit .a0 _ (emit .lat true u)))) h7).cycle

/-- CLK_LO, RED and GRN: a column that answers, but for its last event (R149 to R151). -/
theorem column_lanes (hx : column c u = .next u') :
    ∃ w, CyclesRule 3 codeClkLo c u codeClkHi c w ∧ w.params = u.params ∧ u' = emit .sclk true w := by
  obtain ⟨_, e, -⟩ := eff_column hx
  obtain ⟨v, hred, hx⟩ := andThen_eq_next.1 hx
  obtain ⟨w, hgreen, hx⟩ := andThen_eq_next.1 hx
  cases hx
  have clkLo : PhaseRule codeClkLo c u codeRed c (emit .sclk false u) :=
    fun _ hs => ⟨_, rfl, (hs.emit _ _).setPh _⟩
  have red : PhaseRule codeRed c (emit .sclk false u) codeGrn c v := fun s hs => by
    obtain ⟨t, ht, hm⟩ := hs.ditherTo hred
    exact ⟨_, andThen_eq_next.2 ⟨t, hs.col ▸ ht, rfl⟩, hm.setPh _⟩
  have green : PhaseRule codeGrn c v codeClkHi c w := fun s hs => by
    obtain ⟨t, ht, hm⟩ := hs.ditherTo hgreen
    exact ⟨_, andThen_eq_next.2 ⟨t, hs.col ▸ ht, rfl⟩, hm.setPh _⟩
  exact ⟨w, (clkLo.cycle.trans red.cycle).trans green.cycle, e.params, rfl⟩

/-- CLK_HI of the last column ends the tick (R152). -/
theorem clkHi_last (hc : c + 1 = u.params.cols) : PhaseRule codeClkHi c u codeIdle c (emit .sclk true u) := by
  intro s hs
  have hlast : s.col = s.params.cols - 1 := by rw [hs.col, hs.params]; omega
  exact ⟨_, if_pos hlast, (hs.emit _ _).setPh _⟩

/-- A column counter of CW bits holds every column (R4, R24). -/
theorem lt_two_pow_colWidth {p : Params} (hc : c < p.cols) : c < 2 ^ colWidth p := by
  unfold colWidth
  split
  · have := Nat.two_pow_pos (max 1 0)
    omega
  · have hlog : p.cols - 1 < 2 ^ ((p.cols - 1).log2 + 1) := Nat.lt_log2_self
    have hmax := Nat.pow_le_pow_right Nat.two_pos (Nat.le_max_right 1 ((p.cols - 1).log2 + 1))
    omega

/-- CLK_HI of any other column goes on to the next one: the column counter does not wrap (R152). -/
theorem clkHi_next (hc : c + 1 < u.params.cols) :
    PhaseRule codeClkHi c u codeClkLo (c + 1) (emit .sclk true u) := by
  intro s hs
  have hnot : s.col ≠ s.params.cols - 1 := by rw [hs.col, hs.params]; omega
  have hcol : (s.col + 1) % 2 ^ colWidth s.params = c + 1 := by
    rw [hs.col, hs.params]
    exact Nat.mod_eq_of_lt (lt_two_pow_colWidth hc)
  exact ⟨_, if_neg hnot, { hs.emit .sclk true with ph := rfl, col := hcol }⟩

/-- The columns from `c` to the last one, four cycles each, by induction on their number (R107, R152). -/
theorem columns_cycles (hc : c + (n + 1) = u.params.cols) (hx : columnsFrom c (n + 1) u = .next u') :
    CyclesRule (4 * (n + 1)) codeClkLo c u codeIdle (u.params.cols - 1) u' := by
  induction n generalizing c u with
  | zero =>
    obtain ⟨x, hcolumn, hx⟩ := andThen_eq_next.1 hx
    cases hx
    obtain ⟨w, lanes, hparams, rfl⟩ := column_lanes hcolumn
    have last := lanes.trans (clkHi_last (hparams.symm ▸ hc)).cycle
    rwa [show u.params.cols - 1 = c by omega]
  | succ n ih =>
    obtain ⟨x, hcolumn, hx⟩ := andThen_eq_next.1 hx
    obtain ⟨w, lanes, hparams, rfl⟩ := column_lanes hcolumn
    have next : CyclesRule 4 _ c u _ (c + 1) _ := lanes.trans (clkHi_next (by rw [hparams]; omega)).cycle
    have others := ih (u := emit .sclk true w) (by rw [emit_params, hparams]; omega) hx
    rw [emit_params, hparams] at others
    rw [Nat.mul_succ 4 (n + 1), Nat.add_comm]
    exact next.trans others

/-- The cycles of a tick that renders its row, from LAT_HI on, do what the header and RENDER do (R157, R158). -/
theorem rendered_cycles (c : Nat) (h7 : u.row ≠ 7) (hcols : 1 ≤ u.params.cols) (hx : render (header u) = .next u') :
    CyclesRule (5 + 4 * u.params.cols) codeLatHi c u codeIdle (u.params.cols - 1) u' := by
  obtain ⟨n, hn⟩ : ∃ n, u.params.cols = n + 1 := Nat.exists_eq_add_of_le' hcols
  have hcolumns : columnsFrom 0 (n + 1) (header u) = .next u' := hn ▸ hx
  have columns : CyclesRule (4 * (n + 1)) codeClkLo 0 (header u) codeIdle (u.params.cols - 1) u' :=
    columns_cycles ((Nat.zero_add _).trans hn.symm) hcolumns
  rw [← hn] at columns
  exact (header_cycles c h7).trans columns

end

/-! ## The cycles of DISABLE -/

section
variable {s : State} {first : Inputs} {rest : List Stimulus}

/-- The accept cycle of DISABLE leaves the sequencer in LAT_HI, showing the start of the flush tick (R154). -/
theorem step_acceptsDisable (hph : s.ph = codeIdle) (hstim : s.stim = .cycle first :: rest) (hrst : first.rst = false)
    (hv : first.cmdValid = true) (hc : first.cmd = cmdDisable) :
    ∃ t, step s = .next t ∧ t.stim = rest ∧ Mirrors codeLatHi s.col (flushTick s) t := by
  have hphase : decodePhase s.ph = .phIdle := by rw [hph]; rfl
  have haccept : acceptIn codeIdle first = true := acceptIn_iff.2 ⟨hv, .inl rfl⟩
  have hexec : exec .phIdle (present first rest s) = .next (acceptDisable (present first rest s)) := by
    refine (if_pos haccept).trans ?_
    rw [show (present first rest s).inp.cmd = cmdDisable from hc, execCmd_disable]
  refine ⟨latchTick (present first rest s) (acceptDisable (present first rest s)), ?_, rfl, ?_⟩
  · rw [step_clock hrst (nextTurn_cycle hstim), hphase, hexec, andThen_next]
  · exact { ph := rfl, col := rfl, params := rfl, view := rfl, trace := rfl }

end

/-! ## The statements of the family -/

/-- Settles O20: the flush tick renders row 1 from pixel bytes 0. -/
theorem disableStopsTicksAndFlushes : Obligations.DisableStopsTicksAndFlushes := by
  unfold Obligations.DisableStopsTicksAndFlushes
  intro s hcols h
  obtain ⟨t, ht, heq, hfb, hacc⟩ := execDisable_flush hcols h
  exact ⟨t, ht, heq, fun a => hfb ▸ read_zeroFb s a, hacc⟩

/-- Settles O48: the accept cycle, then the flush tick's cycles; the invariant, kept along them, leaves no tick
pending in a disabled block. -/
theorem disableCyclesRefineDisable : Obligations.DisableCyclesRefineDisable := by
  unfold Obligations.DisableCyclesRefineDisable
  intro s first ins rest hinv hd hph hrst hv hc hlen hins hstim
  have hcols : 1 ≤ s.params.cols := Nat.one_le_of_lt hinv.col
  obtain ⟨u, hu, heq, -⟩ := execDisable_flush hcols fun c ch hcol hch =>
    hd.1 _ (cellAddr_lt (by decide) hcol hch)
  obtain ⟨v, hstep, hvstim, start⟩ := step_acceptsDisable hph hstim hrst hv hc
  obtain ⟨t, ht, done, hp⟩ := rendered_cycles (u := flushTick s) s.col (show (1 : Row) ≠ 7 by decide) hcols
    ((execDisable_eq s).symm.trans hu) v 0 rest start ⟨ins, hlen, hins, hvstim⟩
  have hrun : runSteps (6 + 4 * s.params.cols) s = .next t := by
    rw [show 6 + 4 * s.params.cols = 5 + 4 * s.params.cols + 1 by omega, runSteps, hstep, andThen_next]
    exact ht
  have hdisabled : t.run = false := by rw [done.run, heq]
  have hpend : t.tickPend = false := Bool.eq_false_iff.2 fun h =>
    Bool.false_ne_true (hdisabled.symm.trans ((runSteps_keeps_inv hinv hrun).pend h))
  exact ⟨t, u, hrun, hu, done.view, done.trace, done.ph, hpend, hp.stim_of_zero⟩

/-- Settles O31: a SETFRAME on the port is loaded before the Hook's return is sampled. -/
theorem syncWaitWaitsForTheHook : Obligations.SyncWaitWaitsForTheHook := by
  unfold Obligations.SyncWaitWaitsForTheHook
  intro s
  refine ⟨fun h => ⟨fun hack => ?_, fun hack => ?_⟩, fun hv hc hlong => ?_⟩
  · rw [exec_phSyncWait_waits h, hack]
    rfl
  · rw [exec_phSyncWait_waits h, hack]
    rfl
  · refine ⟨_, exec_phSyncWait_setframe hv hc hlong, ?_⟩
    rw [sampleAck_eq]
    exact ⟨rfl, read_fillFb_take hlong⟩

/-- Settles O50: the cycle of the Hook's return leaves the sequencer in IDLE, where every command is ready. -/
theorem waitingCommandRunsWhenTheHookReturns : Obligations.WaitingCommandRunsWhenTheHookReturns := by
  unfold Obligations.WaitingCommandRunsWhenTheHookReturns
  intro s c src seed inp rest i hph hc hstim hrst hv hack hdecode
  obtain rfl : decodeCmd c = i := Except.ok.inj ((decode_command c).symm.trans hdecode)
  have hstep := step_syncWait_waits hph (nextTurn_held hph hc hstim hv) hrst fun h => hc h.2
  have hreturn : sampleAck inp.syncAck s = setPh codeIdle (bumpFrame s) := if_pos hack
  rw [hreturn] at hstep
  exact ⟨_, hstep, rfl, step_command (nextTurn_command rfl (cmdReady_iff.2 (.inl rfl)))⟩

/-- Settles O16: ENABLE's effect, written out. -/
theorem enableSetsRunAndAssertsThePanel : Obligations.EnableSetsRunAndAssertsThePanel := by
  unfold Obligations.EnableSetsRunAndAssertsThePanel
  exact fun s => congrArg Host.Outcome.next (assertPanel_eq s)

end Sys2Proof.Machine
end

-- ==== Proofs of the family 43_sequencer_microops ====
section
/-! PROOFS of the family 43_sequencer_microops: what each phase of the sequencer does in its cycle (R140 to R152), the
cycles of a pending tick against the operation TICK on both its branches (R157), and how long a render tick keeps the
sequencer busy (R158). The refinements build on `Mirrors` and `CyclesRule` of the family before. -/

namespace Sys2Proof.Machine

/-! ## The rule of each phase, as an equation -/

section
variable {s : State}

theorem exec_phLatHi (s : State) : exec .phLatHi s = .next (setPh codeAddr0 (emit .lat true s)) := rfl

theorem exec_phAddr0 (s : State) :
    exec .phAddr0 s = .next (setPh codeAddr1 (emit .a0 (s.row.getLsbD 0) s)) := rfl

theorem exec_phAddr1 (s : State) :
    exec .phAddr1 s = .next (setPh codeAddr2 (emit .a1 (s.row.getLsbD 1) s)) := rfl

theorem exec_phAddr2 (s : State) :
    exec .phAddr2 s = .next (setPh codeLatLo (emit .a2 (s.row.getLsbD 2) s)) := rfl

theorem exec_phClkLo (s : State) : exec .phClkLo s = .next (setPh codeRed (emit .sclk false s)) := rfl

theorem exec_phSyncReq (s : State) : exec .phSyncReq s = .next (setPh codeSyncWait (emitSync s)) := rfl

/-- LAT_LO of the sync row goes on to the call of the Hook (R146). -/
theorem exec_phLatLo_sync (h7 : s.row = 7) : exec .phLatLo s = .next (setPh codeSyncReq (emit .lat false s)) :=
  if_pos (isSync_iff.2 h7)

/-- LAT_LO of any other row goes on to its first column (R146). -/
theorem exec_phLatLo_render (h7 : s.row ≠ 7) :
    exec .phLatLo s = .next (setPh codeClkLo (clearCol (emit .lat false s))) :=
  if_neg fun h => h7 (isSync_iff.1 h)

theorem exec_phRed_visit {t : State} (h : ditherTo .dr s.col chRed s = .next t) :
    exec .phRed s = .next (setPh codeGrn t) :=
  andThen_eq_next.2 ⟨t, h, rfl⟩

theorem exec_phGrn_visit {t : State} (h : ditherTo .dg s.col chGreen s = .next t) :
    exec .phGrn s = .next (setPh codeClkHi t) :=
  andThen_eq_next.2 ⟨t, h, rfl⟩

theorem exec_phClkHi_last (h : s.col = s.params.cols - 1) :
    exec .phClkHi s = .next (setPh codeIdle (emit .sclk true s)) :=
  if_pos h

theorem exec_phClkHi_next (h : s.col ≠ s.params.cols - 1) :
    exec .phClkHi s = .next (setPh codeClkLo (advanceCol (emit .sclk true s))) :=
  if_neg h

/-- The column counter does not wrap before the last column (R152; log 15). -/
theorem advanceCol_eq (h : s.col + 1 < s.params.cols) : advanceCol s = { s with col := s.col + 1 } := by
  rw [advanceCol, Nat.mod_eq_of_lt (lt_two_pow_colWidth h)]

/-- A visit of a cell that holds a value in both memories, written out (R102 to R105). -/
theorem ditherTo_visit {pin : Pin} {c ch : Nat} {a p : Byte} (hc : c < s.params.cols) (hch : ch < 2)
    (ha : s.acc.read (cellAddr s.params s.row.toNat c ch) = some a)
    (hp : s.fb.read (cellAddr s.params s.row.toNat c ch) = some p) :
    ditherTo pin c ch s =
      .next (emit pin (dueBit a p) (storeAcc (cellAddr s.params s.row.toNat c ch) (dueResidual a p) s)) :=
  ditherTo_eq_next.2 ⟨cellAddr_lt (row_lt s.row) hc hch, a, p, ha, hp, rfl⟩

/-- What ACC reads after the write-back: the new residual in the visited cell, the old one elsewhere (R42, R105). -/
theorem read_storeAcc (a b : Nat) (v : Byte) :
    (storeAcc a v s).acc.read b = if b = a then some v else s.acc.read b := by
  rw [storeAcc_acc]
  split
  · next h => rw [h, Memory.read_write_same]
  · next h => rw [Memory.read_write_other _ _ (Ne.symm h)]

/-! ### IDLE -/

theorem exec_phIdle_accepts (hv : s.inp.cmdValid = true) : exec .phIdle s = execCmd s.inp.cmd s :=
  if_pos (acceptIn_iff.2 ⟨hv, .inl rfl⟩)

theorem not_acceptIn_of_noCommand (hv : s.inp.cmdValid = false) (q : BitVec 4) : ¬acceptIn q s.inp = true := fun h =>
  Bool.eq_false_iff.1 hv (acceptIn_iff.1 h).1

theorem exec_phIdle_starts (hv : s.inp.cmdValid = false) (hpend : s.tickPend = true) (hrun : s.run = true) :
    exec .phIdle s = .next (takeTick s) :=
  have noAccept := not_acceptIn_of_noCommand hv codeIdle
  (if_neg noAccept).trans (if_pos (startIn_iff.2 ⟨rfl, noAccept, hpend, hrun⟩))

theorem exec_phIdle_rests (hv : s.inp.cmdValid = false) (h : ¬(s.tickPend = true ∧ s.run = true)) :
    exec .phIdle s = .next s :=
  have noStart : ¬startIn codeIdle s = true := fun hs =>
    have ⟨_, _, started⟩ := startIn_iff.1 hs
    h started
  (if_neg (not_acceptIn_of_noCommand hv codeIdle)).trans (if_neg noStart)

theorem execCmd_init (s : State) : execCmd cmdInit s = exec .init s := rfl
theorem execCmd_enable (s : State) : execCmd cmdEnable s = exec .enable s := rfl
theorem execCmd_setframe (s : State) : execCmd cmdSetframe s = exec .setframe s := rfl

/-- NOP and the reserved commands are accepted without effect (R154; log 11). -/
theorem execCmd_noEffect {c : BitVec 3} (h : c = cmdNop ∨ c = 0b101#3 ∨ c = 0b110#3 ∨ c = 0b111#3) (s : State) :
    execCmd c s = .next s := by
  obtain rfl | rfl | rfl | rfl := h <;> rfl

/-- The accept cycle of DISABLE, written out (R154). -/
theorem acceptDisable_eq (s : State) :
    acceptDisable s = { s with
      run := false, row := 1, ph := codeLatHi, fb := (zeroFb s).fb, pins := { s.pins with panelEn := false }
      trace := s.trace ++ [.out .panelEn false] } := rfl

end

/-! ## The start of a pending tick -/

/-- The cycle that starts a pending tick leaves the sequencer in LAT_HI, showing the advanced cursor (R141, R176). -/
theorem step_startsTick {s : State} {ins : List Inputs} {rest : List Stimulus} {n : Nat} (hph : s.ph = codeIdle)
    (hrun : s.run = true) (hpend : s.tickPend = true) (hlen : ins.length = n + 1) (hins : ∀ x ∈ ins, x.rst = false)
    (hv : ∀ x ∈ ins.head?, x.cmdValid = false) (hstim : s.stim = ins.map .cycle ++ rest) :
    ∃ t, step s = .next t ∧ Presents n rest t ∧ Mirrors codeLatHi s.col (advanceRow s) t := by
  obtain ⟨first, others, rfl⟩ := List.exists_cons_of_length_eq_add_one hlen
  obtain ⟨hrst, hothers⟩ := List.forall_mem_cons.1 hins
  have hphase : decodePhase s.ph = .phIdle := by rw [hph]; rfl
  have start := exec_phIdle_starts (s := present first (others.map .cycle ++ rest) s) (hv first rfl) hpend hrun
  have turn : nextTurn s = clockTurn s first (others.map .cycle ++ rest) := nextTurn_cycle hstim
  have hstep := step_clock hrst turn
  rw [hphase, start, andThen_next] at hstep
  exact ⟨_, hstep, ⟨others, Nat.succ.inj hlen, hothers, rfl⟩,
    { ph := rfl, col := rfl, params := rfl, view := rfl, trace := rfl }⟩

/-! ## How many cycles a render tick still takes -/

/-- The cycles that a tick of a row other than the sync row still takes in phase `ph` at column `col` (R158). The
header's phases, and the four of a column, have successive codes (R70). -/
def cyclesLeft (cols : Nat) (ph : BitVec 4) (col : Nat) : Nat :=
  if ph = codeIdle then 0
  else if ph.toNat ≤ codeLatLo.toNat then codeLatLo.toNat + 1 - ph.toNat + 4 * cols
  else 4 * (cols - col) - (ph.toNat - codeClkLo.toNat)

section
variable (cols col : Nat)

@[simp] theorem cyclesLeft_idle : cyclesLeft cols codeIdle col = 0 := rfl
@[simp] theorem cyclesLeft_latHi : cyclesLeft cols codeLatHi col = 5 + 4 * cols := rfl
@[simp] theorem cyclesLeft_addr0 : cyclesLeft cols codeAddr0 col = 4 + 4 * cols := rfl
@[simp] theorem cyclesLeft_addr1 : cyclesLeft cols codeAddr1 col = 3 + 4 * cols := rfl
@[simp] theorem cyclesLeft_addr2 : cyclesLeft cols codeAddr2 col = 2 + 4 * cols := rfl
@[simp] theorem cyclesLeft_latLo : cyclesLeft cols codeLatLo col = 1 + 4 * cols := rfl
@[simp] theorem cyclesLeft_clkLo : cyclesLeft cols codeClkLo col = 4 * (cols - col) := rfl
@[simp] theorem cyclesLeft_red : cyclesLeft cols codeRed col = 4 * (cols - col) - 1 := rfl
@[simp] theorem cyclesLeft_grn : cyclesLeft cols codeGrn col = 4 * (cols - col) - 2 := rfl
@[simp] theorem cyclesLeft_clkHi : cyclesLeft cols codeClkHi col = 4 * (cols - col) - 3 := rfl

end

/-- `cyclesLeft` where a state stands. -/
def State.cyclesLeft (s : State) : Nat := Machine.cyclesLeft s.params.cols s.ph s.col

section
variable {s t u : State} {inp : Inputs} {rest : List Stimulus} {n m : Nat}

/-- A block outside the sync row is busy exactly while cycles are left. -/
theorem busy_iff_cyclesLeft (h : s.Inv) (h7 : s.row ≠ 7) : (outputs s).busy = true ↔ s.cyclesLeft ≠ 0 := by
  have hcol := h.col
  obtain ⟨-, -, -, hbusy, -⟩ := outputPortsFollowTheState s
  rw [hbusy, not_iff_not, State.cyclesLeft]
  constructor
  · intro hp
    exact hp ▸ cyclesLeft_idle _ _
  · intro hzero
    obtain hp | hp | ⟨-, h7'⟩ | ⟨hp, -⟩ := h.phase
    · exact hp
    · obtain hp | hp | hp | hp | hp := hp <;> simp [hp] at hzero
    · exact absurd h7' h7
    · obtain hp | hp | hp | hp := hp <;> simp [hp] at hzero <;> omega

/-- RED and GRN leave the sequencer's registers alone, but for the phase (R150, R151). -/
theorem lane_registers {pin : Pin} {c ch : Nat} {q : BitVec 4}
    (h : andThen (ditherTo pin c ch s) (fun u => .next (setPh q u)) = .next t) :
    t.params = s.params ∧ t.ph = q ∧ t.col = s.col := by
  obtain ⟨u, hu, h⟩ := andThen_eq_next.1 h
  obtain ⟨-, _, _, -, -, rfl⟩ := ditherTo_eq_next.1 hu
  cases h
  exact ⟨rfl, rfl, rfl⟩

/-- Each phase of a render tick takes one of the cycles left (R142 to R152). -/
theorem exec_cyclesLeft (h : s.Inv) (h7 : s.row ≠ 7) (busy : s.ph ≠ codeIdle)
    (hx : exec (decodePhase s.ph) s = .next t) : t.cyclesLeft + 1 = s.cyclesLeft := by
  have hcol := h.col
  unfold State.cyclesLeft
  obtain hp | hp | ⟨-, h7'⟩ | ⟨hp, -⟩ := h.phase
  · exact absurd hp busy
  · obtain hp | hp | hp | hp | hp := hp <;> rw [hp] at hx ⊢
    · cases hx; simp; omega
    · cases hx; simp; omega
    · cases hx; simp; omega
    · cases hx; simp; omega
    · cases (exec_phLatLo_render h7).symm.trans hx
      simp; omega
  · exact absurd h7' h7
  · obtain hp | hp | hp | hp := hp <;> rw [hp] at hx ⊢
    · cases hx; simp; omega
    · obtain ⟨hparams, hph, hsame⟩ := lane_registers hx
      simp [hparams, hph, hsame]; omega
    · obtain ⟨hparams, hph, hsame⟩ := lane_registers hx
      simp [hparams, hph, hsame]; omega
    · by_cases hlast : s.col = s.params.cols - 1
      · cases (exec_phClkHi_last hlast).symm.trans hx
        simp; omega
      · rw [show decodePhase codeClkHi = .phClkHi from rfl, exec_phClkHi_next hlast,
          advanceCol_eq (s := emit .sclk true s) (show s.col + 1 < s.params.cols by omega)] at hx
        cases hx
        simp; omega

/-- A cycle of a render tick: one cycle fewer is left, and the row stays (R158). -/
theorem step_cyclesLeft (h : s.Inv) (h7 : s.row ≠ 7) (busy : s.ph ≠ codeIdle)
    (turn : nextTurn s = clockTurn s inp rest) (hrst : inp.rst = false) (hx : step s = .next t) :
    t.cyclesLeft + 1 = s.cyclesLeft ∧ t.row = s.row := by
  rw [step_clock hrst turn] at hx
  obtain ⟨u, hu, hx⟩ := andThen_eq_next.1 hx
  cases hx
  have hrow : decodePhase s.ph ∉ rowWriters := by
    revert busy
    generalize s.ph = q
    revert q
    decide
  have hleft : u.cyclesLeft + 1 = s.cyclesLeft :=
    exec_cyclesLeft (s := present inp rest s) (present_keeps_inv h inp rest) h7 busy hu
  exact ⟨hleft, (exec_writeRights hu).row hrow⟩

/-- `n` presented cycles of a render tick, while there are so many left, by induction on their number. -/
theorem runSteps_cyclesLeft (h : s.Inv) (h7 : s.row ≠ 7) (hp : Presents (n + m) rest s) (hn : n ≤ s.cyclesLeft)
    (hx : runSteps n s = .next t) : t.cyclesLeft + n = s.cyclesLeft ∧ t.row ≠ 7 := by
  induction n generalizing s with
  | zero => cases hx; exact ⟨rfl, h7⟩
  | succ n ih =>
    obtain ⟨u, hu, hx⟩ := andThen_eq_next.1 hx
    obtain ⟨ins, hlen, hins, hstim⟩ := hp
    obtain ⟨inp, ins, rfl⟩ := List.exists_cons_of_length_eq_add_one (hlen.trans (Nat.succ_add n m))
    obtain ⟨hrst, hins⟩ := List.forall_mem_cons.1 hins
    have turn : nextTurn s = clockTurn s inp (ins.map .cycle ++ rest) := nextTurn_cycle hstim
    have busy : s.ph ≠ codeIdle := fun hidle => by
      rw [State.cyclesLeft, hidle, cyclesLeft_idle] at hn
      omega
    obtain ⟨hleft, hrow⟩ := step_cyclesLeft h h7 busy turn hrst hu
    have hstim' : u.stim = ins.map .cycle ++ rest := by rw [(step_stim hu).2, turn]; rfl
    obtain ⟨hleft', h7'⟩ := ih (everyStepKeepsTheInvariant s u h hu) (hrow ▸ h7)
      ⟨ins, by rw [List.length_cons] at hlen; omega, hins, hstim'⟩ (by omega) hx
    exact ⟨by omega, h7'⟩

end

/-- A run that completes completes each of its beginnings. -/
theorem runSteps_completes_of_le {m n : Nat} {s t : State} (hmn : m ≤ n) (hx : runSteps n s = .next t) :
    ∃ u, runSteps m s = .next u := by
  rw [← Nat.add_sub_cancel' hmn, runSteps_add] at hx
  obtain ⟨u, hu, -⟩ := andThen_eq_next.1 hx
  exact ⟨u, hu⟩

/-! ## The cycles of a sync tick (R157) -/

/-- The operands of the SETFRAMEs among the cycles `xs` of SYNC_WAIT: what the Hook issues (R148). -/
def hookFrames (xs : List Inputs) : List (List Byte) :=
  xs.filterMap fun x => if x.cmdValid = true ∧ x.cmd = cmdSetframe then some x.srcBuf else none

/-- The state after the Hook's SETFRAMEs, in order (R92). -/
def afterFrames (frames : List (List Byte)) (s : State) : State := { s with fb := hookFb s.cells s.fb frames }

/-- Commands on the port bring a source buffer long enough to be read (R44). -/
def LongOperands (cells : Nat) (xs : List Inputs) : Prop :=
  ∀ x ∈ xs, x.cmdValid = true → cells ≤ x.srcBuf.length

theorem hookFrames_append (xs ys : List Inputs) : hookFrames (xs ++ ys) = hookFrames xs ++ hookFrames ys :=
  List.filterMap_append

theorem hookFb_append (cells : Nat) (m : Memory) (fs gs : List (List Byte)) :
    hookFb cells m (fs ++ gs) = hookFb cells (hookFb cells m fs) gs := by
  induction fs generalizing m with
  | nil => rfl
  | cons b t ih => exact ih _

theorem afterFrames_append (fs gs : List (List Byte)) (s : State) :
    afterFrames (fs ++ gs) s = afterFrames gs (afterFrames fs s) :=
  congrArg (fun m => { s with fb := m }) (hookFb_append s.cells s.fb fs gs)

theorem hookFrames_long {cells : Nat} {xs : List Inputs} (h : LongOperands cells xs) :
    ∀ b ∈ hookFrames xs, cells ≤ b.length := by
  intro b hb
  obtain ⟨x, hx, hxb⟩ := List.mem_filterMap.1 hb
  split at hxb
  · next hset => cases hxb; exact h x hx hset.1
  · cases hxb

/-- SYNC_WAIT loads the SETFRAME on its port, if there is one, and samples the Hook's return (R148). -/
theorem exec_phSyncWait {s : State} (hlong : s.inp.cmdValid = true → s.cells ≤ s.inp.srcBuf.length) :
    exec .phSyncWait s = .next (sampleAck s.inp.syncAck (afterFrames (hookFrames [s.inp]) s)) := by
  by_cases h : s.inp.cmdValid = true ∧ s.inp.cmd = cmdSetframe
  · have hframes : hookFrames [s.inp] = [s.inp.srcBuf] := by simp [hookFrames, h]
    rw [exec_phSyncWait_setframe h.1 h.2 (hlong h.1), hframes]
    rfl
  · have hframes : hookFrames [s.inp] = [] := by simp only [hookFrames, List.filterMap_cons, if_neg h]; rfl
    rw [exec_phSyncWait_waits h, hframes]
    rfl

section
variable {q : BitVec 4} {c : Nat} {u s : State} {rest : List Stimulus}

theorem Mirrors.frame (h : Mirrors q c u s) : s.frame = u.frame := congrArg OpView.frame h.view

theorem Mirrors.emitSync (h : Mirrors q c u s) : Mirrors q c (emitSync u) (emitSync s) :=
  { h with
    trace := by rw [emitSync_trace, emitSync_trace, h.trace, h.frame] }

theorem Mirrors.afterFrames (h : Mirrors q c u s) (frames : List (List Byte)) :
    Mirrors q c (afterFrames frames u) (afterFrames frames s) :=
  have hcells : s.cells = u.cells := by rw [cells_eq, cells_eq, h.params]
  have hview : ({ s.opView with fb := hookFb s.cells s.fb frames } : OpView) =
      { u.opView with fb := hookFb u.cells u.fb frames } := by rw [h.view, h.fb, hcells]
  { h with view := hview }

theorem Mirrors.bumpFrame (h : Mirrors q c u s) : Mirrors q c (bumpFrame u) (bumpFrame s) :=
  have hview : ({ s.opView with frame := (s.frame + 1) % 2 ^ s.params.fcw } : OpView) =
      { u.opView with frame := (u.frame + 1) % 2 ^ u.params.fcw } := by rw [h.view, h.frame, h.params]
  { h with view := hview }

/-- A phase that writes one pin, its level a function of the row index, and goes on to the next phase. -/
theorem phaseRule_emit {q' : BitVec 4} {p : Pin} (q : BitVec 4) (level : Row → Level)
    (h : ∀ s, exec (decodePhase q) s = .next (Machine.setPh q' (emit p (level s.row) s))) :
    PhaseRule q c u q' c (emit p (level u.row) u) :=
  fun s hs => ⟨_, h s, hs.row ▸ (hs.emit p (level s.row)).setPh q'⟩

/-- LAT_HI to SYNC_REQ write the five events of the header and call the Hook in the sync row (R142 to R147). -/
theorem syncHeader_cycles (c : Nat) (h7 : u.row = 7) :
    CyclesRule 6 codeLatHi c u codeSyncWait c (emitSync (header u)) := by
  have latLo (v : State) (hv : v.row = 7) : PhaseRule codeLatLo c v codeSyncReq c (emit .lat false v) :=
    fun _ hs => ⟨_, exec_phLatLo_sync (hs.row.trans hv), (hs.emit _ _).setPh _⟩
  have syncReq (v : State) : PhaseRule codeSyncReq c v codeSyncWait c (emitSync v) :=
    fun s hs => ⟨_, exec_phSyncReq s, hs.emitSync.setPh _⟩
  have addressed : CyclesRule 4 codeLatHi c u codeLatLo c
      (emit .a2 (u.row.getLsbD 2) (emit .a1 (u.row.getLsbD 1) (emit .a0 (u.row.getLsbD 0) (emit .lat true u)))) :=
    (((phaseRule_emit codeLatHi (fun _ => true) exec_phLatHi).cycle.trans
      (phaseRule_emit codeAddr0 (·.getLsbD 0) exec_phAddr0).cycle).trans
      (phaseRule_emit codeAddr1 (·.getLsbD 1) exec_phAddr1).cycle).trans
      (phaseRule_emit codeAddr2 (·.getLsbD 2) exec_phAddr2).cycle
  exact (addressed.trans (latLo (emit .a2 _ (emit .a1 _ (emit .a0 _ (emit .lat true u)))) h7).cycle).trans
    (syncReq _).cycle

/-- A cycle of SYNC_WAIT: the SETFRAME on its port, if there is one, is loaded, then the Hook's return is sampled
(R148). -/
theorem syncWait_cycle {x : Inputs} (h : Mirrors codeSyncWait c u s) (hstim : s.stim = .cycle x :: rest)
    (hrst : x.rst = false) (hlong : x.cmdValid = true → u.cells ≤ x.srcBuf.length) :
    ∃ t, step s = .next t ∧ t.stim = rest ∧
      (x.syncAck = false → Mirrors codeSyncWait c (afterFrames (hookFrames [x]) u) t) ∧
      (x.syncAck = true → Mirrors codeIdle c (bumpFrame (afterFrames (hookFrames [x]) u)) t) := by
  have hphase : decodePhase s.ph = .phSyncWait := by rw [h.ph]; rfl
  have hcells : s.cells = u.cells := by rw [cells_eq, cells_eq, h.params]
  have loaded := (h.present x rest).afterFrames (hookFrames [x])
  refine ⟨latchTick (present x rest s)
    (sampleAck x.syncAck (afterFrames (hookFrames [x]) (present x rest s))), ?_, ?_, fun hack => ?_, fun hack => ?_⟩
  · rw [step_clock hrst (nextTurn_cycle hstim), hphase, exec_phSyncWait (s := present x rest s) (hcells ▸ hlong),
      andThen_next]
    rfl
  · rw [sampleAck_eq]
    rfl
  · rw [hack]
    exact (loaded.setPh codeSyncWait).latchTick _
  · rw [hack]
    exact (loaded.bumpFrame.setPh codeIdle).latchTick _

/-- The cycles in which the Hook has not returned yet, by induction on their number (R92, R148). -/
theorem syncWait_cycles {waits : List Inputs} (h : Mirrors codeSyncWait c u s)
    (hstim : s.stim = waits.map .cycle ++ rest) (hwaits : ∀ x ∈ waits, x.rst = false ∧ x.syncAck = false)
    (hlong : LongOperands u.cells waits) :
    ∃ t, runSteps waits.length s = .next t ∧ t.stim = rest ∧
      Mirrors codeSyncWait c (afterFrames (hookFrames waits) u) t := by
  induction waits generalizing u s with
  | nil => exact ⟨s, rfl, hstim, h⟩
  | cons x xs ih =>
    obtain ⟨⟨hrst, hack⟩, hxs⟩ := List.forall_mem_cons.1 hwaits
    obtain ⟨hlongx, hlongxs⟩ := List.forall_mem_cons.1 hlong
    obtain ⟨v, hv, hvstim, hwait, -⟩ := syncWait_cycle h hstim hrst hlongx
    obtain ⟨t, ht, htstim, done⟩ := ih (hwait hack) hvstim hxs hlongxs
    refine ⟨t, ?_, htstim, ?_⟩
    · rw [List.length_cons, runSteps, hv, andThen_next, ht]
    · rw [← List.singleton_append, hookFrames_append, afterFrames_append]
      exact done

/-- TICK in the sync row, with a Hook that returns (R85, R86, R92). -/
theorem exec_tick_returns (hrun : s.run = true) (h7 : s.row + 1 = 7) (hret : s.inp.hook.returns = true)
    (hlong : ∀ b ∈ s.inp.hook.frames, s.cells ≤ b.length) :
    exec .tick s = .next (bumpFrame (afterFrames s.inp.hook.frames (emitSync (afterHeader s)))) := by
  rw [exec_tick_enabled hrun, tickBody_sync h7, syncTick_eq_next]
  exact ⟨hlong, (if_pos (show (afterHeader s).inp.hook.returns = true from hret)).symm⟩

end

/-! ## The statements of the family -/

/-- Settles O46: the cycle that starts the tick, then the cycles of the rendered row. -/
theorem renderCyclesRefineTick : Obligations.RenderCyclesRefineTick := by
  unfold Obligations.RenderCyclesRefineTick
  intro s ins rest hinv hd hph hrun hpend hrow hlen hins hv hstim
  have h7 : (advanceRow s).row ≠ 7 := row_succ_ne_seven hrow
  have hlen' : ins.length = 5 + 4 * s.params.cols + 1 := by omega
  obtain ⟨u, hu⟩ := render_completes ((eff_afterHeader s).initialised hd)
  obtain ⟨v, hstep, hp, start⟩ := step_startsTick hph hrun hpend hlen' hins hv hstim
  obtain ⟨t, ht, done, hp⟩ := rendered_cycles (u := advanceRow s) s.col h7 (Nat.one_le_of_lt hinv.col) hu v 0 rest
    start hp
  refine ⟨t, u, ?_, (exec_tick_render hrun h7).trans hu, done.view, done.trace, done.ph, hp.stim_of_zero⟩
  rw [show 6 + 4 * s.params.cols = 5 + 4 * s.params.cols + 1 by omega, runSteps, hstep, andThen_next]
  exact ht

/-- Settles O47: the start and the header, the cycles in which the Hook has not returned, the cycle of its return. -/
theorem syncCyclesRefineTick : Obligations.SyncCyclesRefineTick := by
  unfold Obligations.SyncCyclesRefineTick
  intro s pre waits last rest _ hph hrun hpend hrow hlen hpre hv hwaits hrst hack hlong hstim
  have h7 : s.row + 1 = 7 := by rw [hrow]; rfl
  have hstim' : s.stim = pre.map .cycle ++ (waits.map .cycle ++ .cycle last :: rest) := by simp [hstim]
  have hlong' : LongOperands s.cells (waits ++ [last]) := hlong
  obtain ⟨hlongwaits, hlonglast⟩ := List.forall_mem_append.1 hlong'
  obtain ⟨v, hstep, hp, start⟩ := step_startsTick hph hrun hpend hlen hpre hv hstim'
  obtain ⟨w, hw, called, hp⟩ := syncHeader_cycles s.col h7 v 0 _ start hp
  obtain ⟨x, hx, hxstim, waited⟩ := syncWait_cycles called hp.stim_of_zero hwaits hlongwaits
  obtain ⟨t, ht, htstim, -, returned⟩ := syncWait_cycle waited hxstim hrst (hlonglast last List.mem_cons_self)
  have done := returned hack
  rw [← afterFrames_append, ← hookFrames_append] at done
  have tick := exec_tick_returns
    (s := present { Inputs.quiet with hook := ⟨hookFrames (waits ++ [last]), true⟩ } s.stim s) hrun h7 rfl
    (hookFrames_long hlong')
  have hrun' : runSteps (1 + (6 + (waits.length + 1))) s = .next t := by
    rw [runSteps_add, runSteps_one, hstep, andThen_next, runSteps_add, hw, andThen_next, runSteps_add, hx,
      andThen_next, runSteps_one, ht]
  rw [show 8 + waits.length = 1 + (6 + (waits.length + 1)) by omega]
  exact ⟨t, _, hrun', tick, done.view, done.trace, done.ph, htstim⟩

/-- Settles O49: the cycles left count down by one in each cycle of the tick. -/
theorem renderTickIsBusyForItsCycles : Obligations.RenderTickIsBusyForItsCycles := by
  unfold Obligations.RenderTickIsBusyForItsCycles
  intro s ins rest k hinv hd hph hrun hpend hrow hlen hins hv hstim hk
  obtain ⟨whole, _, hwhole, -⟩ := renderCyclesRefineTick s ins rest hinv hd hph hrun hpend hrow hlen hins hv hstim
  obtain ⟨t, ht⟩ := runSteps_completes_of_le (Nat.succ_le_of_lt hk) hwhole
  have hlen' : ins.length = k + (5 + 4 * s.params.cols - k) + 1 := by omega
  obtain ⟨v, hstep, hp, start⟩ := step_startsTick hph hrun hpend hlen' hins hv hstim
  have hleft : v.cyclesLeft = 5 + 4 * s.params.cols := by
    rw [State.cyclesLeft, start.ph, start.params, cyclesLeft_latHi]
    rfl
  have h7 : v.row ≠ 7 := start.row ▸ row_succ_ne_seven hrow
  have hkv : runSteps k v = .next t := by rwa [runSteps, hstep, andThen_next] at ht
  obtain ⟨hcount, h7'⟩ := runSteps_cyclesLeft (everyStepKeepsTheInvariant s v hinv hstep) h7 hp (by omega) hkv
  refine ⟨t, ht, (busy_iff_cyclesLeft (runSteps_keeps_inv hinv ht) h7').trans ?_⟩
  omega

/-- Settles O5: a presented cycle, and the quiet one where none is left, is the turn. -/
theorem clockCycleRunsItsPhase : Obligations.ClockCycleRunsItsPhase := by
  unfold Obligations.ClockCycleRunsItsPhase
  intro s inp rest i hcycle hrst hdecode
  obtain rfl : decodePhase s.ph = i := Except.ok.inj ((decode_phase s.ph).symm.trans hdecode)
  have turn : nextTurn s = clockTurn s inp rest := by
    obtain hstim | ⟨hstim, rfl, rfl⟩ := hcycle
    · exact nextTurn_cycle hstim
    · simp only [nextTurn, hstim]
  exact step_clock hrst turn

/-- Settles O28: each phase writes one pin and the phase register. -/
theorem headerPhasesEmitTheirEvent : Obligations.HeaderPhasesEmitTheirEvent := by
  unfold Obligations.HeaderPhasesEmitTheirEvent
  exact ⟨decode_encode .phLatHi, decode_encode .phAddr0, decode_encode .phAddr1, decode_encode .phAddr2,
    decode_encode .phClkLo,
    fun s => ⟨exec_phLatHi s, exec_phAddr0 s, exec_phAddr1 s, exec_phAddr2 s, exec_phClkLo s⟩⟩

/-- Settles O29: the two branches of LAT_LO. -/
theorem latLoBranchesOnTheSyncRow : Obligations.LatLoBranchesOnTheSyncRow := by
  unfold Obligations.LatLoBranchesOnTheSyncRow
  exact ⟨decode_encode .phLatLo, fun s => ⟨exec_phLatLo_sync, exec_phLatLo_render⟩⟩

/-- Settles O30: `sync_req` is 1 in the phase SYNC_REQ only, which the call leaves. -/
theorem syncReqCallsTheHook : Obligations.SyncReqCallsTheHook := by
  unfold Obligations.SyncReqCallsTheHook
  refine ⟨decode_encode .phSyncReq, fun s => ⟨exec_phSyncReq s, fun hph => ⟨?_, rfl⟩, fun t ht => ?_⟩⟩
  · obtain ⟨hreq, -⟩ := outputPortsFollowTheState s
    exact hreq.2 hph
  · cases (exec_phSyncReq s).symm.trans ht
    rfl

/-- Settles O32: a visit writes the residual and its lane's pin. -/
theorem lanePhasesVisitTheirCell : Obligations.LanePhasesVisitTheirCell := by
  unfold Obligations.LanePhasesVisitTheirCell
  intro s a p hcol
  refine ⟨fun ha hp => ?_, fun ha hp => ?_⟩
  · exact ⟨_, exec_phRed_visit (ditherTo_visit hcol (show chRed < 2 by decide) ha hp), rfl,
      fun b => read_storeAcc _ b _⟩
  · exact ⟨_, exec_phGrn_visit (ditherTo_visit hcol (show chGreen < 2 by decide) ha hp), rfl,
      fun b => read_storeAcc _ b _⟩

/-- Settles O34: the two branches of CLK_HI; the column counter does not wrap. -/
theorem clkHiEndsTheColumn : Obligations.ClkHiEndsTheColumn := by
  unfold Obligations.ClkHiEndsTheColumn
  refine ⟨decode_encode .phClkHi, fun s hcol => ⟨exec_phClkHi_last, fun hnot => ?_⟩⟩
  rw [exec_phClkHi_next hnot, advanceCol_eq (s := emit .sclk true s) (show s.col + 1 < s.params.cols by omega)]
  rfl

/-- Settles O35: the command on the port, by its word; without one, the pending tick. -/
theorem idleAcceptsACommandOrStartsATick : Obligations.IdleAcceptsACommandOrStartsATick := by
  unfold Obligations.IdleAcceptsACommandOrStartsATick
  intro s
  refine ⟨fun hv => ?_, exec_phIdle_starts, exec_phIdle_rests⟩
  rw [exec_phIdle_accepts hv]
  refine ⟨fun hc => ?_, fun hc => ?_, fun hc => ?_, fun hc => execCmd_noEffect hc s, fun hc => ?_⟩
  · rw [hc]; exact execCmd_init s
  · rw [hc]; exact execCmd_enable s
  · rw [hc]; exact execCmd_setframe s
  · rw [hc]; exact ⟨_, execCmd_disable s, acceptDisable_eq s, read_zeroFb s⟩

end Sys2Proof.Machine
end
